-- ==== Sys2Proof/Word.lean ====
section
/-! DEFINITION. The word types of the CHIP-8 core (00_scope.md R9, R10; 10_state.md R20).
Every value is an unsigned bit vector; nothing in this machine is signed. -/

namespace Sys2Proof

/-- A 4-bit instruction field: X, Y or N (30_encoding.md R71). -/
abbrev Nibble := BitVec 4

/-- A u8: a V register, a timer, a memory byte, the immediate NN. -/
abbrev Byte := BitVec 8

/-- The 12-bit immediate NNN (30_encoding.md R71). -/
abbrev Addr := BitVec 12

/-- A u16: I, PC, a stack slot, an instruction word, the keypad sample. -/
abbrev Word := BitVec 16

/-- A u64: one display row, column x at bit 63 - x (10_state.md R37). -/
abbrev Row := BitVec 64

end Sys2Proof
end

