-- ==== Sys2Proof/Config.lean ====
section
/-! DEFINITION. What an implementation fixes, and what the spec leaves free.

The open parameters of 00_scope.md R8 are the record `Params`; the model takes them as plain data (State's
field `cfg`), so that a statement about every state holds for every value of every parameter (log entry 1).
The free values are the constants declared without a body at the end: nothing can be proved about what
they are. The fixed parameters of R7 are numbers in the definitions that use them; the four that size memory
are named here. -/

namespace Sys2Proof

/-- MEM_SIZE: 4096 addressable bytes, 0x000 to 0xFFF (00_scope.md R7, 20_memory.md R50). -/
def memSize : Nat := 4096

/-- LOAD_BASE, which is also the reset PC (00_scope.md R7). -/
def loadBase : Nat := 0x200

/-- The highest address a 2-byte fetch may start at (40_cycle.md R91). -/
def lastFetch : Nat := 0xFFE

/-- WORD_BYTES: every instruction is 2 bytes (00_scope.md R7, 30_encoding.md R70). -/
def wordBytes : Word := 2

/-- TIMER_MODE (00_scope.md R8, 10_state.md R36). -/
inductive TimerMode where
  /-- every cycle that completes makes one timer step -/
  | coupled
  /-- a timer clock of its own ticks between cycles -/
  | independent
  deriving DecidableEq, Repr

/-- UNMATCHED_POLICY (00_scope.md R8, 40_cycle.md R95). -/
inductive UnmatchedPolicy where
  /-- an unmatched word only advances PC -/
  | noop
  /-- an unmatched word raises Fault(UNMATCHED, w) -/
  | fault
  deriving DecidableEq, Repr

/-- FLAG_ORDER (00_scope.md R8, 42_alu.md R122). -/
inductive FlagOrder where
  /-- VX is written, then VF -/
  | flagLast
  /-- VF is written, then VX -/
  | resultLast
  deriving DecidableEq, Repr

/-- KEY_INDEX_POLICY (00_scope.md R8, 45_keys_timers.md R160). -/
inductive KeyIndexPolicy where
  /-- a key index above 15 raises Fault(KEY_INDEX, k) -/
  | fault
  /-- a key index above 15 reads as released -/
  | notHeld
  deriving DecidableEq, Repr

/-- The open parameters of 00_scope.md R8, each with the spec's default. (INIT_MEM and the launch inputs of
RESET_ZERO = false are in `Launch`: each reset may come with its own.) -/
structure Params where
  timerMode : TimerMode := .coupled
  unmatched : UnmatchedPolicy := .noop
  decodeStrict : Bool := true
  flagOrder : FlagOrder := .flagLast
  keyIndex : KeyIndexPolicy := .fault
  resetZero : Bool := true
  /-- CYCLE_RATE: informational, no rule reads it (70_reset_and_hazards.md R199). -/
  cycleRate : Nat := 60
  deriving DecidableEq, Repr

/-- What a reset is given from outside: INIT_MEM (10_state.md R48, D3), and the launch inputs that count when
RESET_ZERO = false (D2). `mem` lists the bytes of INIT_MEM that are not 0; an address 4096 or above is
dropped. -/
structure Launch where
  v : Vector Byte 16
  i : Word
  stack : Vector Word 16
  dt : Byte
  st : Byte
  display : Vector Row 32
  mem : List Host.Cell
  deriving DecidableEq, Repr

/-- Every piece of state but RS and FR: what a faulted state leaves unspecified (60_exceptions.md R174). -/
structure Leftover where
  v : Vector Byte 16
  i : Word
  pc : Word
  stack : Vector Word 16
  sp : Fin 17
  dt : Byte
  st : Byte
  display : Vector Row 32
  mem : List Host.Cell
  ks : Word
  deriving DecidableEq, Repr, Inhabited

/-- FREE VALUE: the keys input of a cycle for which the host's schedule says nothing (40_cycle.md R96: any
16-bit value, no law from one cycle to the next). Its argument is State's draw counter. Log entry 3. -/
opaque Config.keysInput : Nat → Word

/-- FREE VALUE: whether, in TIMER_MODE = independent, the next event is a timer tick and not a cycle
(10_state.md R36: any number of ticks between two cycles). Log entry 4. -/
opaque Config.tickFalls : Nat → Bool

/-- FREE VALUE: what KS holds once its cycle is over (10_state.md R39: not specified). Log entry 8. -/
opaque Config.ksOutside : Nat → Word

/-- FREE VALUE: every piece of state but RS and FR after a fault (60_exceptions.md R174: any value).
Log entry 5. -/
opaque Config.leftover : Nat → Leftover

end Sys2Proof
end

