-- ==== Sys2Proof/Syntax.lean ====
section
/-! DEFINITION. The 32 instruction forms of 30_encoding.md R74, one constructor per row of
spec/opcode_table.json, in the table's order. A constructor keeps EVERY bit of its word that the row's
match does not fix, ignored ones included: the Y nibble that 8XY6 and 8XYE ignore (42_alu.md R131, R133), and
the nibble that DECODE_STRICT = false leaves uncompared in 00E0, 00EE, 5XY0 and 9XY0 (30_encoding.md R75).
So the word of an instruction can be had back from it (assumption log entry 12). -/

namespace Sys2Proof

/-- One decoded instruction. The comment before each constructor is its hex pattern. -/
inductive Instr where
  /-- `00E0` clear the display; `x` is the nibble w[11:8], 0 in a strictly decoded word (R151). -/
  | cls (x : Nibble)
  /-- `00EE` return; `x` is the nibble w[11:8], 0 in a strictly decoded word (R102). -/
  | ret (x : Nibble)
  /-- `1NNN` jump (R101). -/
  | jp (nnn : Addr)
  /-- `2NNN` call (R103). -/
  | call (nnn : Addr)
  /-- `3XNN` skip if VX = NN (R106). -/
  | seByte (x : Nibble) (nn : Byte)
  /-- `4XNN` skip if VX ≠ NN (R107). -/
  | sneByte (x : Nibble) (nn : Byte)
  /-- `5XY0` skip if VX = VY; `n` is the nibble w[3:0], 0 in a strictly decoded word (R108). -/
  | seReg (x y n : Nibble)
  /-- `6XNN` VX <- NN (R123). -/
  | ldByte (x : Nibble) (nn : Byte)
  /-- `7XNN` VX <- VX + NN, no flag (R124). -/
  | addByte (x : Nibble) (nn : Byte)
  /-- `8XY0` VX <- VY (R125). -/
  | ldReg (x y : Nibble)
  /-- `8XY1` VX <- VX or VY (R126). -/
  | orReg (x y : Nibble)
  /-- `8XY2` VX <- VX and VY (R127). -/
  | andReg (x y : Nibble)
  /-- `8XY3` VX <- VX xor VY (R128). -/
  | xorReg (x y : Nibble)
  /-- `8XY4` add with carry out (R129). -/
  | addReg (x y : Nibble)
  /-- `8XY5` VX <- VX - VY with not-borrow (R130). -/
  | subReg (x y : Nibble)
  /-- `8XY6` shift VX right; `y` is decoded and ignored (R131). -/
  | shr (x y : Nibble)
  /-- `8XY7` VX <- VY - VX with not-borrow (R132). -/
  | subnReg (x y : Nibble)
  /-- `8XYE` shift VX left; `y` is decoded and ignored (R133). -/
  | shl (x y : Nibble)
  /-- `9XY0` skip if VX ≠ VY; `n` is the nibble w[3:0], 0 in a strictly decoded word (R109). -/
  | sneReg (x y n : Nibble)
  /-- `ANNN` I <- NNN (R140). -/
  | ldI (nnn : Addr)
  /-- `BNNN` jump to V0 + NNN (R104). -/
  | jpV0 (nnn : Addr)
  /-- `DXYN` draw an N-row sprite at (VX, VY) (R152). -/
  | drw (x y n : Nibble)
  /-- `EX9E` skip if key VX is held (R161). -/
  | skp (x : Nibble)
  /-- `EXA1` skip if key VX is released (R162). -/
  | sknp (x : Nibble)
  /-- `FX07` VX <- DT (R164). -/
  | ldVxDT (x : Nibble)
  /-- `FX0A` wait for a key (R163). -/
  | ldVxK (x : Nibble)
  /-- `FX15` DT <- VX (R165). -/
  | ldDTVx (x : Nibble)
  /-- `FX18` ST <- VX (R166). -/
  | ldSTVx (x : Nibble)
  /-- `FX1E` I <- I + VX (R141). -/
  | addI (x : Nibble)
  /-- `FX33` store the decimal digits of VX at I (R142). -/
  | ldB (x : Nibble)
  /-- `FX55` store V0..VX at I (R143). -/
  | storeRegs (x : Nibble)
  /-- `FX65` load V0..VX from I (R144). -/
  | loadRegs (x : Nibble)
  deriving DecidableEq, Repr

end Sys2Proof
end

