-- ==== Sys2Proof/WellFormed.lean ====
section
/-! DEFINITION. Which instruction terms are the decoding of some word (30_encoding.md R74, R75).
With DECODE_STRICT = true the literal nibble of 00E0, 00EE, 5XY0 and 9XY0 is compared, so a term whose
kept nibble is not 0 stands for no word's decoding. With DECODE_STRICT = false every term does. -/

namespace Sys2Proof

/-- The check on an instruction term under the given DECODE_STRICT. -/
def Instr.wellFormed (strict : Bool) : Instr → Bool
  | .cls x => !strict || x == 0
  | .ret x => !strict || x == 0
  | .seReg _ _ n => !strict || n == 0
  | .sneReg _ _ n => !strict || n == 0
  | .jp _ => true
  | .call _ => true
  | .seByte _ _ => true
  | .sneByte _ _ => true
  | .ldByte _ _ => true
  | .addByte _ _ => true
  | .ldReg _ _ => true
  | .orReg _ _ => true
  | .andReg _ _ => true
  | .xorReg _ _ => true
  | .addReg _ _ => true
  | .subReg _ _ => true
  | .shr _ _ => true
  | .subnReg _ _ => true
  | .shl _ _ => true
  | .ldI _ => true
  | .jpV0 _ => true
  | .drw _ _ _ => true
  | .skp _ => true
  | .sknp _ => true
  | .ldVxDT _ => true
  | .ldVxK _ => true
  | .ldDTVx _ => true
  | .ldSTVx _ => true
  | .addI _ => true
  | .ldB _ => true
  | .storeRegs _ => true
  | .loadRegs _ => true

end Sys2Proof
end

