-- ==== Sys2Proof/Decode.lean ====
section
/-! DEFINITION. The decoder and the encoder (30_encoding.md R70 to R80).
A word is two bytes, the one at the lower address being bits 15..8 (20_memory.md R56). -/

namespace Sys2Proof

/-- The word of two bytes, `hi` from the lower address (20_memory.md R56). -/
def wordOfBytes (hi lo : Byte) : Word := hi ++ lo

/-- The two bytes of a word in the order memory holds them (20_memory.md R56). -/
def bytesOfWord (w : Word) : List Byte := [w.extractLsb' 8 8, w.extractLsb' 0 8]

/-! The fields of R71. Every field exists in every word. -/

/-- `ind`, w[15:12]. -/
def fieldInd (w : Word) : Nibble := w.extractLsb' 12 4

/-- X, w[11:8]. -/
def fieldX (w : Word) : Nibble := w.extractLsb' 8 4

/-- Y, w[7:4]. -/
def fieldY (w : Word) : Nibble := w.extractLsb' 4 4

/-- N, w[3:0]. -/
def fieldN (w : Word) : Nibble := w.extractLsb' 0 4

/-- NN, w[7:0]. -/
def fieldNN (w : Word) : Byte := w.extractLsb' 0 8

/-- NNN, w[11:0]. -/
def fieldNNN (w : Word) : Addr := w.extractLsb' 0 12

/-- What the decoder answers. -/
inductive Decoded where
  /-- the word matches the row of this instruction -/
  | instr (i : Instr)
  /-- the word matches no row: the unmatched space of R77 -/
  | unmatched (w : Word)
  /-- fewer than two bytes were given (R70: a decoder always consumes 2); never met by a fetch -/
  | truncated (given : Nat)
  deriving DecidableEq, Repr

/-- Family 0: 00E0 and 00EE by the whole word, or by NN alone with DECODE_STRICT = false (R73, R75). -/
def decode0 (strict : Bool) (w : Word) : Decoded :=
  if strict && fieldX w != 0 then .unmatched w
  else if fieldNN w = 0xE0 then .instr (.cls (fieldX w))
  else if fieldNN w = 0xEE then .instr (.ret (fieldX w))
  else .unmatched w

/-- Family 5: N must be 0, or is ignored with DECODE_STRICT = false (R73, R75). -/
def decode5 (strict : Bool) (w : Word) : Decoded :=
  if strict && fieldN w != 0 then .unmatched w
  else .instr (.seReg (fieldX w) (fieldY w) (fieldN w))

/-- Family 9: N must be 0, or is ignored with DECODE_STRICT = false (R73, R75). -/
def decode9 (strict : Bool) (w : Word) : Decoded :=
  if strict && fieldN w != 0 then .unmatched w
  else .instr (.sneReg (fieldX w) (fieldY w) (fieldN w))

/-- Family 8, selected by N (R73; the nine sub-opcodes of 42_alu.md R134). -/
def decode8 (w : Word) : Decoded :=
  let x := fieldX w
  let y := fieldY w
  if fieldN w = 0x0 then .instr (.ldReg x y)
  else if fieldN w = 0x1 then .instr (.orReg x y)
  else if fieldN w = 0x2 then .instr (.andReg x y)
  else if fieldN w = 0x3 then .instr (.xorReg x y)
  else if fieldN w = 0x4 then .instr (.addReg x y)
  else if fieldN w = 0x5 then .instr (.subReg x y)
  else if fieldN w = 0x6 then .instr (.shr x y)
  else if fieldN w = 0x7 then .instr (.subnReg x y)
  else if fieldN w = 0xE then .instr (.shl x y)
  else .unmatched w

/-- Family E, selected by NN (R73). -/
def decodeE (w : Word) : Decoded :=
  if fieldNN w = 0x9E then .instr (.skp (fieldX w))
  else if fieldNN w = 0xA1 then .instr (.sknp (fieldX w))
  else .unmatched w

/-- Family F, selected by NN (R73). -/
def decodeF (w : Word) : Decoded :=
  let x := fieldX w
  if fieldNN w = 0x07 then .instr (.ldVxDT x)
  else if fieldNN w = 0x0A then .instr (.ldVxK x)
  else if fieldNN w = 0x15 then .instr (.ldDTVx x)
  else if fieldNN w = 0x18 then .instr (.ldSTVx x)
  else if fieldNN w = 0x1E then .instr (.addI x)
  else if fieldNN w = 0x33 then .instr (.ldB x)
  else if fieldNN w = 0x55 then .instr (.storeRegs x)
  else if fieldNN w = 0x65 then .instr (.loadRegs x)
  else .unmatched w

/-- The decoder of one word (R73): dispatch by the Indicator, then by N or NN where stated. Indicator C has
no row (R77, R78). -/
def decodeWord (strict : Bool) (w : Word) : Decoded :=
  if fieldInd w = 0x0 then decode0 strict w
  else if fieldInd w = 0x1 then .instr (.jp (fieldNNN w))
  else if fieldInd w = 0x2 then .instr (.call (fieldNNN w))
  else if fieldInd w = 0x3 then .instr (.seByte (fieldX w) (fieldNN w))
  else if fieldInd w = 0x4 then .instr (.sneByte (fieldX w) (fieldNN w))
  else if fieldInd w = 0x5 then decode5 strict w
  else if fieldInd w = 0x6 then .instr (.ldByte (fieldX w) (fieldNN w))
  else if fieldInd w = 0x7 then .instr (.addByte (fieldX w) (fieldNN w))
  else if fieldInd w = 0x8 then decode8 w
  else if fieldInd w = 0x9 then decode9 strict w
  else if fieldInd w = 0xA then .instr (.ldI (fieldNNN w))
  else if fieldInd w = 0xB then .instr (.jpV0 (fieldNNN w))
  else if fieldInd w = 0xD then .instr (.drw (fieldX w) (fieldY w) (fieldN w))
  else if fieldInd w = 0xE then decodeE w
  else if fieldInd w = 0xF then decodeF w
  else .unmatched w

/-- The decoder on bytes as memory holds them: two are consumed whatever they are (R70), the rest is handed
back. -/
def decodeBytes (strict : Bool) : List Byte → Decoded × List Byte
  | hi :: lo :: rest => (decodeWord strict (wordOfBytes hi lo), rest)
  | [b] => (.truncated 1, [b])
  | [] => (.truncated 0, [])

/-- The word of an instruction, nibble by nibble as the patterns of R74 are written. -/
def encode : Instr → Word
  | .cls x => 0x0#4 ++ x ++ 0xE0#8
  | .ret x => 0x0#4 ++ x ++ 0xEE#8
  | .jp nnn => 0x1#4 ++ nnn
  | .call nnn => 0x2#4 ++ nnn
  | .seByte x nn => 0x3#4 ++ x ++ nn
  | .sneByte x nn => 0x4#4 ++ x ++ nn
  | .seReg x y n => 0x5#4 ++ x ++ y ++ n
  | .ldByte x nn => 0x6#4 ++ x ++ nn
  | .addByte x nn => 0x7#4 ++ x ++ nn
  | .ldReg x y => 0x8#4 ++ x ++ y ++ 0x0#4
  | .orReg x y => 0x8#4 ++ x ++ y ++ 0x1#4
  | .andReg x y => 0x8#4 ++ x ++ y ++ 0x2#4
  | .xorReg x y => 0x8#4 ++ x ++ y ++ 0x3#4
  | .addReg x y => 0x8#4 ++ x ++ y ++ 0x4#4
  | .subReg x y => 0x8#4 ++ x ++ y ++ 0x5#4
  | .shr x y => 0x8#4 ++ x ++ y ++ 0x6#4
  | .subnReg x y => 0x8#4 ++ x ++ y ++ 0x7#4
  | .shl x y => 0x8#4 ++ x ++ y ++ 0xE#4
  | .sneReg x y n => 0x9#4 ++ x ++ y ++ n
  | .ldI nnn => 0xA#4 ++ nnn
  | .jpV0 nnn => 0xB#4 ++ nnn
  | .drw x y n => 0xD#4 ++ x ++ y ++ n
  | .skp x => 0xE#4 ++ x ++ 0x9E#8
  | .sknp x => 0xE#4 ++ x ++ 0xA1#8
  | .ldVxDT x => 0xF#4 ++ x ++ 0x07#8
  | .ldVxK x => 0xF#4 ++ x ++ 0x0A#8
  | .ldDTVx x => 0xF#4 ++ x ++ 0x15#8
  | .ldSTVx x => 0xF#4 ++ x ++ 0x18#8
  | .addI x => 0xF#4 ++ x ++ 0x1E#8
  | .ldB x => 0xF#4 ++ x ++ 0x33#8
  | .storeRegs x => 0xF#4 ++ x ++ 0x55#8
  | .loadRegs x => 0xF#4 ++ x ++ 0x65#8

/-- The `match` column of R74's row of an instruction. -/
def rowMatch : Instr → Word
  | .cls _ => 0x00E0
  | .ret _ => 0x00EE
  | .jp _ => 0x1000
  | .call _ => 0x2000
  | .seByte _ _ => 0x3000
  | .sneByte _ _ => 0x4000
  | .seReg _ _ _ => 0x5000
  | .ldByte _ _ => 0x6000
  | .addByte _ _ => 0x7000
  | .ldReg _ _ => 0x8000
  | .orReg _ _ => 0x8001
  | .andReg _ _ => 0x8002
  | .xorReg _ _ => 0x8003
  | .addReg _ _ => 0x8004
  | .subReg _ _ => 0x8005
  | .shr _ _ => 0x8006
  | .subnReg _ _ => 0x8007
  | .shl _ _ => 0x800E
  | .sneReg _ _ _ => 0x9000
  | .ldI _ => 0xA000
  | .jpV0 _ => 0xB000
  | .drw _ _ _ => 0xD000
  | .skp _ => 0xE09E
  | .sknp _ => 0xE0A1
  | .ldVxDT _ => 0xF007
  | .ldVxK _ => 0xF00A
  | .ldDTVx _ => 0xF015
  | .ldSTVx _ => 0xF018
  | .addI _ => 0xF01E
  | .ldB _ => 0xF033
  | .storeRegs _ => 0xF055
  | .loadRegs _ => 0xF065

/-- The `mask` column of R74's row of an instruction; with `strict` false, the mask of R75. -/
def rowMask (strict : Bool) : Instr → Word
  | .cls _ => if strict then 0xFFFF else 0xF0FF
  | .ret _ => if strict then 0xFFFF else 0xF0FF
  | .seReg _ _ _ => if strict then 0xF00F else 0xF000
  | .sneReg _ _ _ => if strict then 0xF00F else 0xF000
  | .jp _ => 0xF000
  | .call _ => 0xF000
  | .seByte _ _ => 0xF000
  | .sneByte _ _ => 0xF000
  | .ldByte _ _ => 0xF000
  | .addByte _ _ => 0xF000
  | .ldI _ => 0xF000
  | .jpV0 _ => 0xF000
  | .drw _ _ _ => 0xF000
  | .ldReg _ _ => 0xF00F
  | .orReg _ _ => 0xF00F
  | .andReg _ _ => 0xF00F
  | .xorReg _ _ => 0xF00F
  | .addReg _ _ => 0xF00F
  | .subReg _ _ => 0xF00F
  | .shr _ _ => 0xF00F
  | .subnReg _ _ => 0xF00F
  | .shl _ _ => 0xF00F
  | .skp _ => 0xF0FF
  | .sknp _ => 0xF0FF
  | .ldVxDT _ => 0xF0FF
  | .ldVxK _ => 0xF0FF
  | .ldDTVx _ => 0xF0FF
  | .ldSTVx _ => 0xF0FF
  | .addI _ => 0xF0FF
  | .ldB _ => 0xF0FF
  | .storeRegs _ => 0xF0FF
  | .loadRegs _ => 0xF0FF

/-- The word whose low `nbits` bits are those of `w` and whose other bits are 0. -/
def tableWord (nbits w : Nat) : Word := BitVec.ofNat 16 (w % 2 ^ nbits)

/-- What the decoder reads from an instruction whose bits are `w`, with the default DECODE_STRICT = true
(log entry 19). An instruction has 16 bits, so a wider one is none. -/
def decodeTableWord (nbits w : Nat) : Option Instr :=
  if 16 < nbits then none
  else
    match (decodeBytes true (bytesOfWord (tableWord nbits w))).1 with
    | .instr i => some i
    | .unmatched _ => none
    | .truncated _ => none

end Sys2Proof
end

