-- ==== Sys2Proof/Machine/State.lean ====
section
/-! DEFINITION. The machine's state as plain data (10_state.md R20), the reasons a step can stop, and the
state right after reset (10_state.md R48). -/

namespace Sys2Proof.Machine

/-- M: the bytes that are not 0, by strictly rising address (20_memory.md R50; log entry 6). -/
abbrev Memory := List Host.Cell

/-- RS, the run state (10_state.md R38). -/
inductive RunState where
  /-- after reset: the host may load an image, no cycle runs -/
  | loaded
  /-- cycles run -/
  | running
  /-- a fetch would have read past the end of memory: the normal end of a run -/
  | halted
  /-- a fault ended the run -/
  | faulted
  deriving DecidableEq, Repr

/-- The fault kinds of 60_exceptions.md R171. -/
inductive FaultKind where
  /-- code 1, by FX33, FX55, FX65, DXYN: a data address of 4096 or more -/
  | bounds
  /-- code 2, by 2NNN: SP = 16 -/
  | stackOverflow
  /-- code 3, by 00EE: SP = 0 -/
  | stackUnderflow
  /-- code 4, by EX9E, EXA1 with KEY_INDEX_POLICY = fault: VX above 15 -/
  | keyIndex
  /-- code 5, by an unmatched word with UNMATCHED_POLICY = fault -/
  | unmatched
  deriving DecidableEq, Repr

/-- FR's record (60_exceptions.md R172); its `code` is that of `kind` (`FaultKind.code`). -/
structure FaultRecord where
  kind : FaultKind
  info : Nat
  word : Word
  pc : Word
  deriving DecidableEq, Repr

/-- What the host and the timer clock do, one entry between two cycles (10_state.md R40, log entry 2). -/
inductive PortEvent where
  /-- the `reset` input, with what this reset is given from outside (R190) -/
  | reset (l : Launch)
  /-- the `load(bytes)` transaction (R41) -/
  | load (bytes : List Byte)
  /-- the `start` input (R44) -/
  | start
  /-- one tick of the timer clock (R46) -/
  | tick
  /-- the core's next cycle runs with this value at `keys[15:0]` (R42) -/
  | keys (sample : Word)
  deriving DecidableEq, Repr

/-- The state of the machine. The first twelve fields are R20's list; the last three are the model's own
(log entries 1, 2, 5). -/
structure State where
  /-- V0..VF -/
  v : Vector Byte 16
  /-- I -/
  i : Word
  /-- PC -/
  pc : Word
  /-- S[0..15] -/
  stack : Vector Word 16
  /-- SP, the number of occupied slots -/
  sp : Fin 17
  /-- DT -/
  dt : Byte
  /-- ST -/
  st : Byte
  /-- D[0..31] -/
  display : Vector Row 32
  /-- M -/
  mem : Memory
  /-- RS -/
  rs : RunState
  /-- FR -/
  fr : Option FaultRecord
  /-- KS -/
  ks : Word
  /-- the open parameters, fixed for the machine (00_scope.md R8) -/
  cfg : Params
  /-- what the host and the timer clock do next, oldest first -/
  ports : List PortEvent
  /-- how many free values have been drawn -/
  draws : Nat
  deriving DecidableEq, Repr

/-- Why a step has no next state. No instruction's meaning answers with one of these: the faults of
60_exceptions.md are taken as next states. -/
inductive Fault where
  /-- raised by a step of a `halted` machine with no port event pending: the run has ended, no cycle is
  enabled (40_cycle.md R90, R99). Safe: the model stops where the spec says nothing more happens. -/
  | halted
  /-- raised by a step of a `faulted` machine with no port event pending: the run has failed, no cycle is
  enabled (40_cycle.md R90, 60_exceptions.md R170). Safe, as above. -/
  | faulted
  deriving DecidableEq, Repr

/-- Why a step has no meaning. -/
inductive Refusal where
  /-- raised by exec's arm of an instruction that has no meaning yet; no arm answers it now. Safe. -/
  | notModelled (mnemonic : String)
  /-- raised by a `load` event while RS is not `loaded`: "a model gives such a call no step"
  (10_state.md R41, 93_implementation_defined.md row 15). Safe. -/
  | loadNotAccepted
  /-- raised by a `tick` event with TIMER_MODE = coupled: "the port does not exist" (10_state.md R46). Safe. -/
  | noTickPort
  deriving DecidableEq, Repr

/-- The outcome of a meaning or a step. -/
abbrev Result := Host.Outcome State Fault Refusal

/-- The machine right after reset (10_state.md R48, R49) with the default parameters, INIT_MEM all zero, no
port event pending. PC and SP are the source's; the zeros are D2's choice (log entry 7), those of memory and KS
the model's (log entries 6, 8). -/
def State.reset : State where
  v := Vector.replicate 16 0
  i := 0
  pc := 0x200
  stack := Vector.replicate 16 0
  sp := 0
  dt := 0
  st := 0
  display := Vector.replicate 32 0
  mem := []
  rs := .loaded
  fr := none
  ks := 0
  cfg := {}
  ports := []
  draws := 0

end Sys2Proof.Machine
end

