-- ==== Sys2Proof/Machine/Ops.lean ====
section
/-! DEFINITION. The named operations over memory, registers, stack, timers and the run state, the entry into a
fault, and reset. Every read and write of the state goes through these. -/

namespace Sys2Proof.Machine

/-! ### Memory: one byte at a time (20_memory.md R50, R57) -/

/-- What an address that is not listed reads as (log entry 6). -/
def Memory.unlisted : Byte := 0

/-- M[a]. -/
def Memory.read : Memory → Nat → Byte
  | [], _ => Memory.unlisted
  | (b, x) :: m, a => if a < b then Memory.unlisted else if a = b then x else Memory.read m a

/-- M with M[a] <- x, in canonical form: writing what an unlisted address reads as removes the entry. -/
def Memory.write : Memory → Nat → Byte → Memory
  | [], a, x => if x = Memory.unlisted then [] else [(a, x)]
  | (b, y) :: m, a, x =>
    if a < b then if x = Memory.unlisted then (b, y) :: m else (a, x) :: (b, y) :: m
    else if a = b then if x = Memory.unlisted then m else (a, x) :: m
    else (b, y) :: Memory.write m a x

/-- Consecutive bytes at a, a+1, …, each its own write, the first at the lowest address (R57, R59). -/
def Memory.writeBytes : Memory → Nat → List Byte → Memory
  | m, _, [] => m
  | m, a, x :: xs => Memory.writeBytes (Memory.write m a x) (a + 1) xs

/-- The memory with exactly the listed bytes, addresses of 4096 and more dropped; an earlier entry of the list
wins. -/
def Memory.ofCells : List Host.Cell → Memory
  | [] => []
  | (a, x) :: cs => if a < memSize then Memory.write (Memory.ofCells cs) a x else Memory.ofCells cs

/-- `load(bytes)`: byte k goes to a + k; bytes that would land at 4096 or above are dropped (20_memory.md
R53). -/
def Memory.loadAt : Memory → Nat → List Byte → Memory
  | m, _, [] => m
  | m, a, x :: xs => Memory.loadAt (if a < memSize then Memory.write m a x else m) (a + 1) xs

/-- The addresses of the list are strictly rising, above `low` when it is given. -/
def Memory.rising : Option Nat → Memory → Bool
  | _, [] => true
  | low, (a, _) :: m => (low.all fun l => l < a) && Memory.rising (some a) m

/-- The canonical form: addresses strictly rising, each below 4096, no entry equal to what an unlisted address
reads as. -/
def Memory.wf (m : Memory) : Bool :=
  Memory.rising none m && m.all fun c => decide (c.1 < memSize) && decide (c.2 ≠ Memory.unlisted)

/-! ### Writes of one piece of state -/

/-- V[x]. -/
def State.readV (s : State) (x : Nibble) : Byte := s.v[x.toNat]

/-- V[x] <- b. No register is hardwired or aliased (10_state.md R21). -/
def State.writeV (s : State) (x : Nibble) (b : Byte) : State := { s with v := s.v.set x.toNat b }

/-- I <- w. -/
def State.setI (s : State) (w : Word) : State := { s with i := w }

/-- PC <- w. -/
def State.setPC (s : State) (w : Word) : State := { s with pc := w }

/-- S[k] <- w. -/
def State.setSlot (s : State) (k : Fin 16) (w : Word) : State := { s with stack := s.stack.set k.val w }

/-- SP <- n. -/
def State.setSP (s : State) (n : Fin 17) : State := { s with sp := n }

/-- DT <- b. -/
def State.setDT (s : State) (b : Byte) : State := { s with dt := b }

/-- ST <- b. -/
def State.setST (s : State) (b : Byte) : State := { s with st := b }

/-- D <- d, all rows. -/
def State.setDisplay (s : State) (d : Vector Row 32) : State := { s with display := d }

/-- M <- m. -/
def State.setMem (s : State) (m : Memory) : State := { s with mem := m }

/-- RS <- r. -/
def State.setRS (s : State) (r : RunState) : State := { s with rs := r }

/-- KS <- w. -/
def State.setKS (s : State) (w : Word) : State := { s with ks := w }

/-- The schedule of port events becomes `es`. -/
def State.setPorts (s : State) (es : List PortEvent) : State := { s with ports := es }

/-- One more free value has been drawn. -/
def State.nextDraw (s : State) : State := { s with draws := s.draws + 1 }

/-! ### Control flow -/

/-- The skip mechanism: PC <- PC + 2 (41_control.md R105). -/
def State.skip (s : State) : State := s.setPC (s.pc + wordBytes)

/-- Skip when the condition holds (41_control.md R105). -/
def State.skipIf (s : State) (c : Prop) [Decidable c] : State := if c then s.skip else s

/-- Push w: S[SP] <- w, SP <- SP + 1; the stack is not full (10_state.md R28). -/
def State.push (s : State) (w : Word) (h : s.sp.val < 16) : State :=
  (s.setSlot ⟨s.sp.val, h⟩ w).setSP ⟨s.sp.val + 1, by omega⟩

/-- Pop into PC: SP <- SP - 1, PC <- S[SP]; the slot is not cleared; the stack is not empty (10_state.md R28,
41_control.md R102). -/
def State.popPC (s : State) (h : 0 < s.sp.val) : State :=
  (s.setSP ⟨s.sp.val - 1, by omega⟩).setPC (s.stack[s.sp.val - 1]'(by omega))

/-! ### Timers -/

/-- One timer's decrement: clamped at 0 (10_state.md R33). -/
def decTimer (t : Byte) : Byte := if t ≠ 0 then t - 1 else t

/-- One timer step: both timers, in the same step (10_state.md R34). -/
def State.timerStep (s : State) : State := (s.setDT (decTimer s.dt)).setST (decTimer s.st)

/-! ### Taking a fault (60_exceptions.md R170 to R174) -/

/-- The code of a fault kind (R171). -/
def FaultKind.code : FaultKind → Nat
  | .bounds => 1
  | .stackOverflow => 2
  | .stackUnderflow => 3
  | .keyIndex => 4
  | .unmatched => 5

/-- The record's `code` (R172). -/
def FaultRecord.code (r : FaultRecord) : Nat := r.kind.code

/-- The record of a fault raised while PC holds the fetch address + 2 (R172: `pc` is the fetch address; log entry
13). -/
def State.faultRecord (s : State) (k : FaultKind) (info : Nat) (w : Word) : FaultRecord :=
  { kind := k, info := info, word := w, pc := s.pc - wordBytes }

/-- `raise Fault(kind, info)` in the execution of the word w: FR <- the record, RS <- faulted; every other piece
of R20's state is unspecified and takes one free value (R174, log entry 5). -/
def State.raiseFault (s : State) (k : FaultKind) (info : Nat) (w : Word) : State :=
  let free := Config.leftover s.draws
  { v := free.v, i := free.i, pc := free.pc, stack := free.stack, sp := free.sp, dt := free.dt, st := free.st,
    display := free.display, mem := Memory.ofCells free.mem, ks := free.ks,
    rs := .faulted, fr := some (s.faultRecord k info w),
    cfg := s.cfg, ports := s.ports, draws := s.draws + 1 }

/-! ### Reset (10_state.md R48, 70_reset_and_hazards.md R190) -/

/-- The state of R48 for the machine's parameters and what this reset is given from outside. The schedule and
the draw counter are the environment's and stay. -/
def State.afterReset (s : State) (l : Launch) : State :=
  let z := s.cfg.resetZero
  { v := if z then Vector.replicate 16 0 else l.v
    i := if z then 0 else l.i
    pc := 0x200
    stack := if z then Vector.replicate 16 0 else l.stack
    sp := 0
    dt := if z then 0 else l.dt
    st := if z then 0 else l.st
    display := if z then Vector.replicate 32 0 else l.display
    mem := Memory.ofCells l.mem
    rs := .loaded
    fr := none
    ks := 0
    cfg := s.cfg
    ports := s.ports
    draws := s.draws }

/-! ### The outputs (10_state.md R40, R43, R45): they change no state -/

/-- Pixel (x, y) of the display: D[y][63 - x] (R37); unlit outside the screen. -/
def State.pixel (s : State) (x y : Nat) : Bool :=
  if h : x < 64 ∧ y < 32 then (s.display[y]'h.2).getLsbD (63 - x) else false

/-- The `display` output. -/
def State.displayOut (s : State) : Vector Row 32 := s.display

/-- The `run_state` output. -/
def State.runStateOut (s : State) : RunState := s.rs

/-- The `fault` output. -/
def State.faultOut (s : State) : Option FaultRecord := s.fr

end Sys2Proof.Machine
end

