-- ==== Sys2Proof/Machine/Operands.lean ====
section
/-! DEFINITION. The operand forms: zero-extended immediates (30_encoding.md R72), the memory operand I + k with
its bounds check (20_memory.md R51, R52, R59), blocks of registers, and the key index (45_keys_timers.md R160). -/

namespace Sys2Proof.Machine

/-- NNN zero-extended to 16 bits (30_encoding.md R72). -/
def zext16 (nnn : Addr) : Word := nnn.setWidth 16

/-- A byte zero-extended to 16 bits (41_control.md R104, 43_index_memory.md R141). -/
def byteToWord (b : Byte) : Word := b.setWidth 16

/-- The address I + k as a natural number, never reduced (20_memory.md R52). -/
def State.operandAddr (s : State) (k : Nat) : Nat := s.i.toNat + k

/-- The lowest of the addresses I + 0 … I + (n - 1) that is outside memory, if one is (20_memory.md R51,
60_exceptions.md R171). -/
def State.outOfBounds (s : State) (n : Nat) : Option Nat :=
  ((List.range n).map s.operandAddr).find? fun a => decide (memSize ≤ a)

/-- An instruction `i` that accesses the n bytes at I: BOUNDS with the lowest bad address when one is outside
memory, before any write (43_index_memory.md R145, 44_display.md R154); otherwise its effect `t`. -/
def State.withBytesAtI (s : State) (n : Nat) (i : Instr) (t : State) : State :=
  match s.outOfBounds n with
  | some a => s.raiseFault .bounds a (encode i)
  | none => t

/-- V[0], …, V[n - 1] (43_index_memory.md R143). -/
def State.firstRegs (s : State) (n : Nat) : List Byte :=
  (List.range n).map fun k => s.readV (BitVec.ofNat 4 k)

/-- V[k] <- M[I + k] for k = 0, …, n - 1, ascending (43_index_memory.md R144). -/
def State.loadFirstRegs (s : State) (n : Nat) : State :=
  (List.range n).foldl (fun t k => t.writeV (BitVec.ofNat 4 k) (s.mem.read (s.operandAddr k))) s

/-- K[k] of the cycle's sample: 1 if key k is held (10_state.md R39). -/
def State.keyHeld (s : State) (k : Nat) : Bool := s.ks.getLsbD k

/-- An instruction `i` that reads VX as a key index: `effect` of whether that key is held, where an index above
15 goes by KEY_INDEX_POLICY (45_keys_timers.md R160). -/
def State.withKey (s : State) (x : Nibble) (i : Instr) (effect : Bool → State) : State :=
  let k := (s.readV x).toNat
  if k ≤ 15 then effect (s.keyHeld k)
  else
    match s.cfg.keyIndex with
    | .fault => s.raiseFault .keyIndex k (encode i)
    | .notHeld => effect false

/-- The lowest key held in the sample, if one is (45_keys_timers.md R163). -/
def State.firstHeld (s : State) : Option Nat := (List.range 16).find? s.keyHeld

end Sys2Proof.Machine
end

