-- ==== Sys2Proof/Machine/Flags.lean ====
section
/-! DEFINITION. The flag values written to VF (10_state.md R35, 42_alu.md R120) and the order of the two writes
of a flag-writing instruction (42_alu.md R122). -/

namespace Sys2Proof.Machine

/-- VF, the flag register (10_state.md R22). -/
def regF : Nibble := 0xF

/-- A flag as the byte VF holds. -/
def flagByte (b : Bool) : Byte := if b then 1 else 0

/-- The carry out of a + b: 1 iff the sum exceeds 255 (42_alu.md R120, R129). -/
def carryFlag (a b : Byte) : Byte := flagByte (decide (255 < a.toNat + b.toNat))

/-- The not-borrow of a - b: 1 iff a ≥ b (42_alu.md R120, R130, R132). -/
def notBorrowFlag (a b : Byte) : Byte := flagByte (decide (b.toNat ≤ a.toNat))

/-- The bit a right shift by one moves out: bit 0 (42_alu.md R131). -/
def shiftedOutRight (a : Byte) : Byte := flagByte (a.getLsbD 0)

/-- The bit a left shift by one moves out: bit 7 (42_alu.md R133). -/
def shiftedOutLeft (a : Byte) : Byte := flagByte (a.getLsbD 7)

/-- Write the result r to V[x] and the flag f to VF in FLAG_ORDER (42_alu.md R122). -/
def State.writeResultFlag (s : State) (x : Nibble) (r f : Byte) : State :=
  match s.cfg.flagOrder with
  | .flagLast => (s.writeV x r).writeV regF f
  | .resultLast => (s.writeV regF f).writeV x r

end Sys2Proof.Machine
end

