-- ==== Sys2Proof/Machine/Alu.lean ====
section
/-! DEFINITION. Register loads and arithmetic-logic instructions (42_alu.md). The operands are read before any
write (R121): each meaning reads them from the state it is given. -/

namespace Sys2Proof.Machine

/-- `6XNN` (R123). -/
def execLdByte (x : Nibble) (nn : Byte) (s : State) : Result := .next (s.writeV x nn)

/-- `7XNN` (R124): modulo 256, no flag. -/
def execAddByte (x : Nibble) (nn : Byte) (s : State) : Result := .next (s.writeV x (s.readV x + nn))

/-- `8XY0` (R125). -/
def execLdReg (x y : Nibble) (s : State) : Result := .next (s.writeV x (s.readV y))

/-- `8XY1` (R126): no flag. -/
def execOrReg (x y : Nibble) (s : State) : Result := .next (s.writeV x (s.readV x ||| s.readV y))

/-- `8XY2` (R127): no flag. -/
def execAndReg (x y : Nibble) (s : State) : Result := .next (s.writeV x (s.readV x &&& s.readV y))

/-- `8XY3` (R128): no flag. -/
def execXorReg (x y : Nibble) (s : State) : Result := .next (s.writeV x (s.readV x ^^^ s.readV y))

/-- `8XY4` (R129). -/
def execAddReg (x y : Nibble) (s : State) : Result :=
  .next (s.writeResultFlag x (s.readV x + s.readV y) (carryFlag (s.readV x) (s.readV y)))

/-- `8XY5` (R130). -/
def execSubReg (x y : Nibble) (s : State) : Result :=
  .next (s.writeResultFlag x (s.readV x - s.readV y) (notBorrowFlag (s.readV x) (s.readV y)))

/-- `8XY6` (R131): VX is shifted, the Y field is ignored. -/
def execShr (x _y : Nibble) (s : State) : Result :=
  .next (s.writeResultFlag x (s.readV x >>> 1) (shiftedOutRight (s.readV x)))

/-- `8XY7` (R132). -/
def execSubnReg (x y : Nibble) (s : State) : Result :=
  .next (s.writeResultFlag x (s.readV y - s.readV x) (notBorrowFlag (s.readV y) (s.readV x)))

/-- `8XYE` (R133): VX is shifted, the Y field is ignored. -/
def execShl (x _y : Nibble) (s : State) : Result :=
  .next (s.writeResultFlag x (s.readV x <<< 1) (shiftedOutLeft (s.readV x)))

end Sys2Proof.Machine
end

