-- ==== Sys2Proof/Machine/Control.lean ====
section
/-! DEFINITION. Control transfer and conditional skips (41_control.md). In every meaning of this and the other
family files PC already holds the fetch address + 2 (40_cycle.md R93). -/

namespace Sys2Proof.Machine

/-- `1NNN` (R101). -/
def execJp (nnn : Addr) (s : State) : Result := .next (s.setPC (zext16 nnn))

/-- `00EE` (R102). -/
def execRet (x : Nibble) (s : State) : Result :=
  .next (if h : 0 < s.sp.val then s.popPC h else s.raiseFault .stackUnderflow 0 (encode (.ret x)))

/-- `2NNN` (R103): the pushed value is PC, the address of the next word. -/
def execCall (nnn : Addr) (s : State) : Result :=
  .next (if h : s.sp.val < 16 then (s.push s.pc h).setPC (zext16 nnn)
    else s.raiseFault .stackOverflow 16 (encode (.call nnn)))

/-- `BNNN` (R104): always V0, the sum not reduced to 12 bits. -/
def execJpV0 (nnn : Addr) (s : State) : Result := .next (s.setPC (byteToWord (s.readV 0) + zext16 nnn))

/-- `3XNN` (R106). -/
def execSeByte (x : Nibble) (nn : Byte) (s : State) : Result := .next (s.skipIf (s.readV x = nn))

/-- `4XNN` (R107). -/
def execSneByte (x : Nibble) (nn : Byte) (s : State) : Result := .next (s.skipIf (s.readV x ≠ nn))

/-- `5XY0` (R108); the nibble w[3:0] is 0, or ignored (30_encoding.md R75). -/
def execSeReg (x y _n : Nibble) (s : State) : Result := .next (s.skipIf (s.readV x = s.readV y))

/-- `9XY0` (R109); the nibble w[3:0] is 0, or ignored (30_encoding.md R75). -/
def execSneReg (x y _n : Nibble) (s : State) : Result := .next (s.skipIf (s.readV x ≠ s.readV y))

end Sys2Proof.Machine
end

