-- ==== Sys2Proof/Machine/Display.lean ====
section
/-! DEFINITION. The display: clear and sprite drawing (44_display.md). A row's pixels are applied as one 64-bit
XOR, as R150 allows; a pixel is toggled at most once per draw, so the collision of a row is that a toggled pixel
was lit before (log entry 16). -/

namespace Sys2Proof.Machine

/-- `00E0` (R151); the nibble w[11:8] is 0, or ignored (30_encoding.md R75). -/
def execCls (_x : Nibble) (s : State) : Result := .next (s.setDisplay (Vector.replicate 32 0))

/-- The pixels that the sprite byte b toggles in its row when its leftmost pixel is at column x0: bit 7 - c of b
at column x0 + c, that is at bit 63 - (x0 + c); columns from 64 on are clipped (R152). -/
def spriteMask (b : Byte) (x0 : Nat) : Row := ((b.setWidth 64) <<< 56) >>> x0

/-- The rows of a sprite (R152): `n` rows left to draw, the next one at screen row y from address a, on the
display d with the collision so far c. Rows from 32 on are clipped. -/
def drawRows (m : Memory) (x0 : Nat) : (n y a : Nat) → Vector Row 32 → Bool → Vector Row 32 × Bool
  | 0, _, _, d, c => (d, c)
  | n + 1, y, a, d, c =>
    if h : y < 32 then
      let mask := spriteMask (m.read a) x0
      drawRows m x0 n (y + 1) (a + 1) (d.set y (d[y] ^^^ mask)) (c || (d[y] &&& mask) != 0)
    else (d, c)

/-- The effect of `DXYN` once its addresses are in bounds: the origin is read before VF is written (R153), VF
ends as the collision flag. -/
def State.drawSprite (s : State) (x y n : Nibble) : State :=
  let p := drawRows s.mem ((s.readV x).toNat % 64) n.toNat ((s.readV y).toNat % 32) (s.operandAddr 0) s.display false
  (s.setDisplay p.1).writeV regF (flagByte p.2)

/-- `DXYN` (R152, R154). -/
def execDrw (x y n : Nibble) (s : State) : Result :=
  .next (s.withBytesAtI n.toNat (.drw x y n) (s.drawSprite x y n))

end Sys2Proof.Machine
end

