-- ==== Sys2Proof/Machine/IndexMemory.lean ====
section
/-! DEFINITION. The index register and memory transfers (43_index_memory.md). FX33, FX55 and FX65 leave I
unchanged (R145). -/

namespace Sys2Proof.Machine

/-- `ANNN` (R140). -/
def execLdI (nnn : Addr) (s : State) : Result := .next (s.setI (zext16 nnn))

/-- `FX1E` (R141): modulo 65536, no flag. -/
def execAddI (x : Nibble) (s : State) : Result := .next (s.setI (s.i + byteToWord (s.readV x)))

/-- The hundreds, tens and units of a byte (R142). -/
def bcdDigits (b : Byte) : List Byte :=
  [BitVec.ofNat 8 (b.toNat / 100), BitVec.ofNat 8 (b.toNat / 10 % 10), BitVec.ofNat 8 (b.toNat % 10)]

/-- `FX33` (R142). -/
def execLdB (x : Nibble) (s : State) : Result :=
  .next (s.withBytesAtI 3 (.ldB x) (s.setMem (s.mem.writeBytes (s.operandAddr 0) (bcdDigits (s.readV x)))))

/-- `FX55` (R143). -/
def execStoreRegs (x : Nibble) (s : State) : Result :=
  .next (s.withBytesAtI (x.toNat + 1) (.storeRegs x)
    (s.setMem (s.mem.writeBytes (s.operandAddr 0) (s.firstRegs (x.toNat + 1)))))

/-- `FX65` (R144). -/
def execLoadRegs (x : Nibble) (s : State) : Result :=
  .next (s.withBytesAtI (x.toNat + 1) (.loadRegs x) (s.loadFirstRegs (x.toNat + 1)))

end Sys2Proof.Machine
end

