-- ==== Sys2Proof/Machine/KeysTimers.lean ====
section
/-! DEFINITION. Keypad and timer instructions (45_keys_timers.md). -/

namespace Sys2Proof.Machine

/-- `EX9E` (R161). -/
def execSkp (x : Nibble) (s : State) : Result :=
  .next (s.withKey x (.skp x) fun held => s.skipIf (held = true))

/-- `EXA1` (R162). -/
def execSknp (x : Nibble) (s : State) : Result :=
  .next (s.withKey x (.sknp x) fun held => s.skipIf (held = false))

/-- `FX07` (R164): the value before this cycle's timer step. -/
def execLdVxDT (x : Nibble) (s : State) : Result := .next (s.writeV x s.dt)

/-- `FX0A` (R163): the lowest held key, or PC back at this instruction. -/
def execLdVxK (x : Nibble) (s : State) : Result :=
  .next (match s.firstHeld with
    | some k => s.writeV x (BitVec.ofNat 8 k)
    | none => s.setPC (s.pc - wordBytes))

/-- `FX15` (R165). -/
def execLdDTVx (x : Nibble) (s : State) : Result := .next (s.setDT (s.readV x))

/-- `FX18` (R166). -/
def execLdSTVx (x : Nibble) (s : State) : Result := .next (s.setST (s.readV x))

end Sys2Proof.Machine
end

