-- ==== Sys2Proof/Machine/Cycle.lean ====
section
/-! DEFINITION. The core's cycle (40_cycle.md R90) and the steps of the host and the timer clock
(10_state.md R40 to R46). -/

namespace Sys2Proof.Machine

/-- The word at a, the byte of the lower address in bits 15..8 (40_cycle.md R92, 20_memory.md R56). -/
def State.fetchWord (s : State) (a : Nat) : Word := wordOfBytes (s.mem.read a) (s.mem.read (a + 1))

/-- The state in which the execute step runs: PC advanced by 2, the keys latched (R93, R96). -/
def State.fetched (s : State) (keys : Word) : State := (s.setPC (s.pc + wordBytes)).setKS keys

/-- An unmatched word w (R95): a no-op, or the fault UNMATCHED. -/
def execUnmatched (w : Word) (s : State) : Result :=
  .next (match s.cfg.unmatched with
    | .noop => s
    | .fault => s.raiseFault .unmatched w.toNat w)

/-- Execute(w, a) on a state whose PC is a + 2 (R94, R95). -/
def executeWord (w : Word) (s : State) : Result :=
  match decodeWord s.cfg.decodeStrict w with
  | .instr i => exec i s
  | .unmatched u => execUnmatched u s
  | .truncated _ => execUnmatched w s

/-- The timer step that is part of the cycle (R97). -/
def State.coupledTimerStep (s : State) : State :=
  match s.cfg.timerMode with
  | .coupled => s.timerStep
  | .independent => s

/-- KS once the cycle is over: not specified, a free value (10_state.md R39, log entry 8). -/
def State.releaseSample (s : State) : State := (s.setKS (Config.ksOutside s.draws)).nextDraw

/-- What follows execute: nothing after a fault (60_exceptions.md R170), else the timer step (R97), and the
sample is no longer specified. -/
def State.endCycle (s : State) : State :=
  if s.rs = .faulted then s else s.coupledTimerStep.releaseSample

/-- The same for an outcome. -/
def endOfCycle : Result → Result
  | .next t => .next t.endCycle
  | .fault r => .fault r
  | .refused r => .refused r

/-- One cycle with the given value at the keys input (R90): halt, or fetch, advance, latch, execute, timers. -/
def cycle (keys : Word) (s : State) : Result :=
  if lastFetch < s.pc.toNat then .next (s.setRS .halted)
  else endOfCycle (executeWord (s.fetchWord s.pc.toNat) (s.fetched keys))

/-- One event of the schedule, already taken off it (10_state.md R40 to R46, log entries 2 and 11). -/
def portStep (e : PortEvent) (s : State) : Result :=
  match e with
  | .reset l => .next (s.afterReset l)
  | .load bytes =>
    if s.rs = .loaded then .next (s.setMem (s.mem.loadAt loadBase bytes)) else .refused .loadNotAccepted
  | .start => .next (if s.rs = .loaded then s.setRS .running else s)
  | .tick =>
    match s.cfg.timerMode with
    | .coupled => .refused .noTickPort
    | .independent => .next (if s.rs = .running then s.timerStep else s)
  | .keys sample => if s.rs = .running then cycle sample s else .next s

/-- A running machine whose schedule is empty: a cycle with a free keys value (R96), or, with a timer clock of
its own, a tick where the free choice says so (10_state.md R36). -/
def freeStep (s : State) : Result :=
  match s.cfg.timerMode with
  | .coupled => cycle (Config.keysInput s.draws) s.nextDraw
  | .independent =>
    if Config.tickFalls s.draws then .next s.nextDraw.timerStep
    else cycle (Config.keysInput (s.draws + 1)) s.nextDraw.nextDraw

/-- One step: the next scheduled event if there is one, else by the run state (10_state.md R38, log entry 10). -/
def stepOnce (s : State) : Result :=
  match s.ports with
  | e :: rest => portStep e (s.setPorts rest)
  | [] =>
    match s.rs with
    | .loaded => .next s
    | .running => freeStep s
    | .halted => .fault .halted
    | .faulted => .fault .faulted

end Sys2Proof.Machine
end

