-- ==== Sys2Proof/Machine/Step.lean ====
section
/-! DEFINITION. The step, and how an instruction is placed where the next step fetches it. -/

namespace Sys2Proof.Machine

/-- One step of the machine (see `stepOnce`). -/
def step (s : State) : Host.Outcome State Fault Refusal := stepOnce s

/-- `s` with the instruction whose bits are `w` (0 above `nbits`) at PC, ready to be the next thing that runs: the
machine is running and the next event is a cycle, with KS's present value at the keys input. A PC from which
nothing can be fetched (R91) becomes 0x200. Log entry 17. -/
def State.withFetchWord (s : State) (nbits w : Nat) : State :=
  let pc := if lastFetch < s.pc.toNat then BitVec.ofNat 16 loadBase else s.pc
  { s with
    pc := pc
    mem := s.mem.writeBytes pc.toNat (bytesOfWord (tableWord nbits w))
    rs := .running
    ports := [.keys s.ks] }

end Sys2Proof.Machine
end

