-- ==== Sys2Proof/Safety.lean ====
section
/-! DEFINITION. The terms in which statements about the machine are made: what an outcome keeps, what taking a
fault is, the pixels a sprite hits, which pieces of state the spec lets an instruction write, and the invariants
of a run. A run is good as long as RS is not `faulted` (40_cycle.md R99). -/

namespace Sys2Proof.Machine

/-- The pieces of state of 10_state.md R20. -/
inductive Piece where
  | v | i | pc | stack | sp | dt | st | display | mem | rs | fr | ks
  deriving DecidableEq, Repr

/-- `t` has every piece of `s` that is not in `ps`, and its parameters and schedule; registers and memory are said
through one read. (The draw counter is the model's own and nothing is said of it.) -/
def KeepsBut (ps : List Piece) (s t : State) : Prop :=
  (Piece.v ∉ ps → ∀ x, t.readV x = s.readV x) ∧
  (Piece.i ∉ ps → t.i = s.i) ∧
  (Piece.pc ∉ ps → t.pc = s.pc) ∧
  (Piece.stack ∉ ps → t.stack = s.stack) ∧
  (Piece.sp ∉ ps → t.sp = s.sp) ∧
  (Piece.dt ∉ ps → t.dt = s.dt) ∧
  (Piece.st ∉ ps → t.st = s.st) ∧
  (Piece.display ∉ ps → t.display = s.display) ∧
  (Piece.mem ∉ ps → ∀ a, t.mem.read a = s.mem.read a) ∧
  (Piece.rs ∉ ps → t.rs = s.rs) ∧
  (Piece.fr ∉ ps → t.fr = s.fr) ∧
  (Piece.ks ∉ ps → t.ks = s.ks) ∧
  t.cfg = s.cfg ∧ t.ports = s.ports

/-- The outcome is a next state that differs from `s` in the pieces `ps` only and of which `P` holds. -/
def Completes (s : State) (r : Result) (ps : List Piece) (P : State → Prop) : Prop :=
  ∃ t, r = .next t ∧ KeepsBut ps s t ∧ P t

/-- The outcome is the entry into a fault (60_exceptions.md R170, R172), raised by the word `w` while PC held its
fetch address + 2: RS and FR are as said, the parameters and the schedule are untouched, and nothing is said of
the rest (R174). -/
def TakesFault (s : State) (r : Result) (k : FaultKind) (info : Nat) (w : Word) : Prop :=
  ∃ t, r = .next t ∧ t.rs = .faulted ∧ t.fr = some { kind := k, info := info, word := w, pc := s.pc - 2 } ∧
    t.cfg = s.cfg ∧ t.ports = s.ports

/-- Every word that matches the row decodes as `f` of it, under both values of DECODE_STRICT (30_encoding.md
R73). -/
def DecodesAs (mask mtch : Word) (f : Word → Instr) : Prop :=
  ∀ (strict : Bool) (w : Word), w &&& mask = mtch → decodeWord strict w = .instr (f w)

/-- The registers after an instruction that writes a result r to VX and a flag f to VF in FLAG_ORDER (42_alu.md R122):
both stand when X ≠ F; VF is f when X = F under flag_last and r under result_last; no other register changes. -/
def WritesResultAndFlag (s t : State) (x : Nibble) (r f : Nat) : Prop :=
  (∀ z, z ≠ x → z ≠ 0xF → t.readV z = s.readV z) ∧
  (x ≠ 0xF → (t.readV x).toNat = r ∧ (t.readV 0xF).toNat = f) ∧
  (x = 0xF → s.cfg.flagOrder = .flagLast → (t.readV 0xF).toNat = f) ∧
  (x = 0xF → s.cfg.flagOrder = .resultLast → (t.readV 0xF).toNat = r)

/-- The core's next event in `s` is a cycle with `k` at the keys input, and `rest` is what the schedule holds after
it; the address of the fetch is one that can be fetched (40_cycle.md R91). -/
def CycleIsNext (s : State) (k : Word) (rest : List PortEvent) : Prop :=
  s.rs = .running ∧ s.ports = .keys k :: rest ∧ s.pc.toNat ≤ 0xFFE

/-- The word at PC (40_cycle.md R92). -/
def State.wordAtPC (s : State) : Word :=
  wordOfBytes (s.mem.read s.pc.toNat) (s.mem.read (s.pc.toNat + 1))

/-- Whether the sprite of `DXYN` drawn in `s` toggles pixel (cx, cy): 44_display.md R152, read off its loops. -/
def spriteHits (s : State) (x y n : Nibble) (cx cy : Nat) : Prop :=
  let x0 := (s.readV x).toNat % 64
  let y0 := (s.readV y).toNat % 32
  ∃ r c : Nat, r < n.toNat ∧ c ≤ 7 ∧ cy = y0 + r ∧ cx = x0 + c ∧ cy < 32 ∧ cx < 64 ∧
    (s.mem.read (s.i.toNat + r)).getLsbD (7 - c) = true

/-- Memory is in canonical form. -/
def State.MemoryCanonical (s : State) : Prop := s.mem.wf = true

/-- There is a fault record exactly in a faulted state (60_exceptions.md R170, R172, R176). -/
def State.RecordIffFaulted (s : State) : Prop := s.rs = .faulted ↔ s.fr ≠ none

/-- PC never wraps (10_state.md R26): it is at most 0x10FE, and every occupied stack slot holds at most 0x1000, the
highest address of a next word. In a faulted state nothing is said (60_exceptions.md R174); in a halted state the bound of
PC rests on the model's leaving PC at the fetch address (D5, log entry 9). -/
def State.PcInRange (s : State) : Prop :=
  s.rs ≠ .faulted → s.pc.toNat ≤ 0x10FE ∧ ∀ k : Fin 16, k.val < s.sp.val → s.stack[k].toNat ≤ 0x1000

end Sys2Proof.Machine

namespace Sys2Proof

open Machine

/-- The pieces an instruction may write when it raises no fault (10_state.md R23 to R32, R37; 20_memory.md
R59). -/
def Instr.footprint : Instr → List Piece
  | .cls _ => [.display]
  | .ret _ => [.pc, .sp]
  | .jp _ => [.pc]
  | .call _ => [.pc, .sp, .stack]
  | .seByte _ _ => [.pc]
  | .sneByte _ _ => [.pc]
  | .seReg _ _ _ => [.pc]
  | .ldByte _ _ => [.v]
  | .addByte _ _ => [.v]
  | .ldReg _ _ => [.v]
  | .orReg _ _ => [.v]
  | .andReg _ _ => [.v]
  | .xorReg _ _ => [.v]
  | .addReg _ _ => [.v]
  | .subReg _ _ => [.v]
  | .shr _ _ => [.v]
  | .subnReg _ _ => [.v]
  | .shl _ _ => [.v]
  | .sneReg _ _ _ => [.pc]
  | .ldI _ => [.i]
  | .jpV0 _ => [.pc]
  | .drw _ _ _ => [.display, .v]
  | .skp _ => [.pc]
  | .sknp _ => [.pc]
  | .ldVxDT _ => [.v]
  | .ldVxK _ => [.v, .pc]
  | .ldDTVx _ => [.dt]
  | .ldSTVx _ => [.st]
  | .addI _ => [.i]
  | .ldB _ => [.mem]
  | .storeRegs _ => [.mem]
  | .loadRegs _ => [.v]

/-- Whether an instruction may write the register z (10_state.md R23). -/
def Instr.mayWriteV : Instr → Nibble → Prop
  | .cls _, _ => False
  | .ret _, _ => False
  | .jp _, _ => False
  | .call _, _ => False
  | .seByte _ _, _ => False
  | .sneByte _ _, _ => False
  | .seReg _ _ _, _ => False
  | .ldByte x _, z => z = x
  | .addByte x _, z => z = x
  | .ldReg x _, z => z = x
  | .orReg x _, z => z = x
  | .andReg x _, z => z = x
  | .xorReg x _, z => z = x
  | .addReg x _, z => z = x ∨ z = regF
  | .subReg x _, z => z = x ∨ z = regF
  | .shr x _, z => z = x ∨ z = regF
  | .subnReg x _, z => z = x ∨ z = regF
  | .shl x _, z => z = x ∨ z = regF
  | .sneReg _ _ _, _ => False
  | .ldI _, _ => False
  | .jpV0 _, _ => False
  | .drw _ _ _, z => z = regF
  | .skp _, _ => False
  | .sknp _, _ => False
  | .ldVxDT x, z => z = x
  | .ldVxK x, z => z = x
  | .ldDTVx _, _ => False
  | .ldSTVx _, _ => False
  | .addI _, _ => False
  | .ldB _, _ => False
  | .storeRegs _, _ => False
  | .loadRegs x, z => z.toNat ≤ x.toNat

/-- The instructions that read the keypad sample (10_state.md R39). -/
def Instr.readsKeys : Instr → Bool
  | .cls _ => false
  | .ret _ => false
  | .jp _ => false
  | .call _ => false
  | .seByte _ _ => false
  | .sneByte _ _ => false
  | .seReg _ _ _ => false
  | .ldByte _ _ => false
  | .addByte _ _ => false
  | .ldReg _ _ => false
  | .orReg _ _ => false
  | .andReg _ _ => false
  | .xorReg _ _ => false
  | .addReg _ _ => false
  | .subReg _ _ => false
  | .shr _ _ => false
  | .subnReg _ _ => false
  | .shl _ _ => false
  | .sneReg _ _ _ => false
  | .ldI _ => false
  | .jpV0 _ => false
  | .drw _ _ _ => false
  | .skp _ => true
  | .sknp _ => true
  | .ldVxDT _ => false
  | .ldVxK _ => true
  | .ldDTVx _ => false
  | .ldSTVx _ => false
  | .addI _ => false
  | .ldB _ => false
  | .storeRegs _ => false
  | .loadRegs _ => false

end Sys2Proof
end

