-- ==== Sys2Proof/Certificates/Slice0/Obligations.lean ====
section
/-! DEFINITION. The statements for the provers. Each docstring names the rule of spec/ it formalises; a statement
that rests on one of the spec's own decisions (D<n> of 92_eei_decisions.md) or on a log entry says so. In the
statements about one instruction the state s is the one the execute step sees: PC is the fetch address + 2
(40_cycle.md R93). -/

open Sys2Proof Sys2Proof.Machine

/-! ### Encoding -/

/-- 30_encoding.md R71 to R75: the decoder reads back every word the encoder writes, whatever DECODE_STRICT (D10) is:
no operand bit is dropped. -/
def Obligations.DecodeOfEncodedInstruction : Prop :=
  ∀ (strict : Bool) (i : Instr), i.wellFormed strict = true → decodeWord strict (encode i) = .instr i

/-- 30_encoding.md R71 to R75: a decoded instruction is well-formed and its encoding is the word it was decoded from,
so that the word of a fault record is the word executed (log entry 12). -/
def Obligations.EncodeOfDecodedWord : Prop :=
  ∀ (strict : Bool) (w : Word) (i : Instr), decodeWord strict w = .instr i →
    encode i = w ∧ i.wellFormed strict = true

/-- 30_encoding.md R73, R74, R75 (D10): the decoder answers the instruction of the one row that matches the word, and
hands the word back as unmatched when no row does. -/
def Obligations.DecoderFollowsOpcodeMap : Prop :=
  ∀ (strict : Bool) (w : Word),
    (∃ i, decodeWord strict w = .instr i ∧ w &&& rowMask strict i = rowMatch i ∧
      ∀ j, w &&& rowMask strict j = rowMatch j → rowMatch j = rowMatch i) ∨
    (decodeWord strict w = .unmatched w ∧ ∀ j, w &&& rowMask strict j ≠ rowMatch j)

/-- 30_encoding.md R77 (its classes; D10 for DECODE_STRICT = false), R78 (D11), 42_alu.md R134: exactly these words
are unmatched. -/
def Obligations.UnmatchedSpaceIsTheListedClasses : Prop :=
  (∀ w : Word, decodeWord true w = .unmatched w ↔
    (fieldInd w = 0 ∧ w ≠ 0x00E0 ∧ w ≠ 0x00EE) ∨
    (fieldInd w = 0x5 ∧ fieldN w ≠ 0) ∨
    (fieldInd w = 0x9 ∧ fieldN w ≠ 0) ∨
    (fieldInd w = 0x8 ∧ fieldN w ∈ [0x8, 0x9, 0xA, 0xB, 0xC, 0xD, 0xF]) ∨
    fieldInd w = 0xC ∨
    (fieldInd w = 0xE ∧ fieldNN w ∉ [0x9E, 0xA1]) ∨
    (fieldInd w = 0xF ∧ fieldNN w ∉ [0x07, 0x0A, 0x15, 0x18, 0x1E, 0x33, 0x55, 0x65])) ∧
  (∀ w : Word, decodeWord false w = .unmatched w ↔
    (fieldInd w = 0 ∧ fieldNN w ∉ [0xE0, 0xEE]) ∨
    (fieldInd w = 0x8 ∧ fieldN w ∈ [0x8, 0x9, 0xA, 0xB, 0xC, 0xD, 0xF]) ∨
    fieldInd w = 0xC ∨
    (fieldInd w = 0xE ∧ fieldNN w ∉ [0x9E, 0xA1]) ∨
    (fieldInd w = 0xF ∧ fieldNN w ∉ [0x07, 0x0A, 0x15, 0x18, 0x1E, 0x33, 0x55, 0x65]))

/-- 95_test_vectors.md section 2.1, and one word of each family from the patterns of 30_encoding.md R74 (D10 and
D11 for the unmatched words). -/
def Obligations.WordsOfTheSpecDecode : Prop :=
  decodeWord true 0xD123 = .instr (.drw 1 2 3) ∧
  decodeWord true 0x00E0 = .instr (.cls 0) ∧
  decodeWord true 0x01E0 = .unmatched 0x01E0 ∧
  decodeWord false 0x01E0 = .instr (.cls 1) ∧
  decodeWord true 0x5121 = .unmatched 0x5121 ∧
  decodeWord false 0x5121 = .instr (.seReg 1 2 1) ∧
  decodeWord true 0x8128 = .unmatched 0x8128 ∧
  decodeWord true 0xC0FF = .unmatched 0xC0FF ∧
  decodeWord true 0xF029 = .unmatched 0xF029 ∧
  decodeWord true 0xE19E = .instr (.skp 1) ∧
  decodeWord true 0x0000 = .unmatched 0x0000 ∧
  decodeWord true 0x2300 = .instr (.call 0x300) ∧
  decodeWord true 0x6A7B = .instr (.ldByte 0xA 0x7B) ∧
  decodeWord true 0x8FE4 = .instr (.addReg 0xF 0xE) ∧
  decodeWord true 0xA300 = .instr (.ldI 0x300) ∧
  decodeWord true 0xF255 = .instr (.storeRegs 2)

/-! ### Reset, the cycle, the ports -/

/-- 10_state.md R48 and 70_reset_and_hazards.md R190 (the choices of D2, D3, D4, D18 and the derived SP = 0; log
entries 6, 7): a reset event, in every run state, leaves the values of R48. Memory reads as the INIT_MEM this reset is
given. -/
def Obligations.ResetEventLeavesResetValues : Prop :=
  ∀ (s : State) (l : Launch) (rest : List PortEvent), s.ports = .reset l :: rest → ∃ t, step s = .next t ∧
    t.pc = 0x200 ∧ t.sp = 0 ∧ t.rs = .loaded ∧ t.fr = none ∧
    (s.cfg.resetZero = true → (∀ x, t.readV x = 0) ∧ t.i = 0 ∧ (∀ k : Fin 16, t.stack[k] = 0) ∧ t.dt = 0 ∧
      t.st = 0 ∧ ∀ k : Fin 32, t.display[k] = 0) ∧
    (s.cfg.resetZero = false → t.v = l.v ∧ t.i = l.i ∧ t.stack = l.stack ∧ t.dt = l.dt ∧ t.st = l.st ∧
      t.display = l.display) ∧
    ((l.mem.map Prod.fst).Nodup → ∀ a, a < 4096 →
      (∀ x, (a, x) ∈ l.mem → t.mem.read a = x) ∧ ((∀ x, (a, x) ∉ l.mem) → t.mem.read a = 0)) ∧
    t.cfg = s.cfg ∧ t.ports = rest

/-- 10_state.md R48: the state State.reset has the reset values (with the zeros of D2 and INIT_MEM all zero, log
entries 6 and 7) and meets the invariants of a run. -/
def Obligations.ResetStateMeetsInvariants : Prop :=
  State.reset.pc = 0x200 ∧ State.reset.sp = 0 ∧ State.reset.rs = .loaded ∧ State.reset.fr = none ∧
  (∀ x, State.reset.readV x = 0) ∧ (∀ a, State.reset.mem.read a = 0) ∧
  State.reset.MemoryCanonical ∧ State.reset.RecordIffFaulted ∧ State.reset.PcInRange

/-- 20_memory.md R50, R51 (log entry 6): no step, a fault's among them, takes memory out of its canonical form: no
byte is ever held at 4096 or above. -/
def Obligations.StepKeepsMemoryCanonical : Prop :=
  ∀ s t : State, s.MemoryCanonical → step s = .next t → t.MemoryCanonical

/-- 60_exceptions.md R170, R172, R176 (D18): there is a fault record exactly in a faulted state, at every step. -/
def Obligations.StepKeepsRecordIffFaulted : Prop :=
  ∀ s t : State, s.RecordIffFaulted → step s = .next t → t.RecordIffFaulted

/-- 10_state.md R26 ("PC never wraps", derived there; D7 for BNNN): in a run without a fault PC stays at most 0x10FE,
because a fetch starts at 0xFFE or below, a skip adds 2, a jump gives at most 0xFFF or 0xFF + 0xFFF, and every pushed
address is at most 0x1000. Of a HALTED state it holds only because the model leaves PC at the fetch address (D5; log
entry 9, DEDUCED): row 12 of 93_implementation_defined.md also allows a + 2, up to 0x1100, so no claim about the hardware
may take the bound of PC in `halted` from this statement. -/
def Obligations.StepKeepsPcInRange : Prop :=
  ∀ s t : State, s.PcInRange → step s = .next t → t.PcInRange

/-- 40_cycle.md R90, R92, R93, R94, R96, R97 (D21 for the latch, D20 for the timer step; log entries 2, 3, 8): a cycle whose word decodes to i
is exec of i at the state with PC advanced by 2 and the keys latched, then the coupled timer step unless a fault was
taken; KS is a free value afterwards. The second part is the cycle of an empty schedule, whose keys are a free
value. -/
def Obligations.StepRunsTheDecodedInstruction : Prop :=
  (∀ (s : State) (k : Word) (rest : List PortEvent) (i : Instr), CycleIsNext s k rest →
    decodeWord s.cfg.decodeStrict s.wordAtPC = .instr i →
    ∃ t, exec i (((s.setPorts rest).setPC (s.pc + 2)).setKS k) = .next t ∧
      step s = .next (if t.rs = .faulted then t else t.coupledTimerStep.releaseSample)) ∧
  (∀ (s : State) (i : Instr), s.rs = .running → s.ports = [] → s.cfg.timerMode = .coupled → s.pc.toNat ≤ 0xFFE →
    decodeWord s.cfg.decodeStrict s.wordAtPC = .instr i →
    ∃ t, exec i ((s.nextDraw.setPC (s.pc + 2)).setKS (Config.keysInput s.draws)) = .next t ∧
      step s = .next (if t.rs = .faulted then t else t.coupledTimerStep.releaseSample))

/-- 40_cycle.md section 1, the halt (D5): a cycle at a fetch address above 0xFFE sets RS to halted and does nothing
else. Of PC it is said only that it is a or a + 2, as row 12 of 93_implementation_defined.md asks (log entry 9). That KS
too stays as it was is the model's choice (log entry 8, DESIGN CHOICE): row 14 leaves KS outside a cycle any value. -/
def Obligations.CyclePastTheEndHalts : Prop :=
  ∀ (s : State) (k : Word) (rest : List PortEvent), s.rs = .running → s.ports = .keys k :: rest →
    0xFFE < s.pc.toNat →
    ∃ t, step s = .next t ∧ t.rs = .halted ∧ (t.pc = s.pc ∨ t.pc = s.pc + 2) ∧
      KeepsBut [.rs, .pc] (s.setPorts rest) t

/-- 40_cycle.md R95 (D9), 60_exceptions.md R171 (D18; D31 for the record's pc): an unmatched word advances PC and lets the coupled timer step
happen, or faults with its own word and fetch address, by UNMATCHED_POLICY. -/
def Obligations.UnmatchedWordIsNoopOrFault : Prop :=
  ∀ (s : State) (k : Word) (rest : List PortEvent), CycleIsNext s k rest →
    decodeWord s.cfg.decodeStrict s.wordAtPC = .unmatched s.wordAtPC →
    (s.cfg.unmatched = .noop → ∃ t, step s = .next t ∧ t.pc = s.pc + 2 ∧
      KeepsBut [.pc, .dt, .st, .ks] (s.setPorts rest) t ∧
      (s.cfg.timerMode = .coupled → t.dt.toNat = s.dt.toNat - 1 ∧ t.st.toNat = s.st.toNat - 1) ∧
      (s.cfg.timerMode = .independent → t.dt = s.dt ∧ t.st = s.st)) ∧
    (s.cfg.unmatched = .fault → ∃ t, step s = .next t ∧ t.rs = .faulted ∧
      t.fr = some { kind := .unmatched, info := s.wordAtPC.toNat, word := s.wordAtPC, pc := s.pc } ∧
      t.ports = rest)

/-- 20_memory.md R56: "The fetch reads w = (M[a] << 8) | M[a+1]"; the byte at the lower address is bits 15..8, under
every value of every parameter. -/
def Obligations.FetchIsBigEndian : Prop :=
  ∀ (s : State) (a : Nat), (s.fetchWord a).toNat = (s.mem.read a).toNat * 256 + (s.mem.read (a + 1)).toNat ∧
    (s.fetchWord a).extractLsb' 8 8 = s.mem.read a ∧ (s.fetchWord a).extractLsb' 0 8 = s.mem.read (a + 1)

/-- 10_state.md R33: a timer step takes 1 off a timer that is not 0 and leaves one at 0. Of R33's last sentence, that a
timer at 0 stays at 0 until an instruction writes it, this says less: a timer at 0 stays at 0 through every step but a
reset (70_reset_and_hazards.md R190, whose timer values are D2's), a step into a fault (60_exceptions.md R174, D18: any
value) and any step, a cycle or not, in whose state the word at PC is the instruction that writes that timer. -/
def Obligations.TimersClampAtZero : Prop :=
  (∀ s : State, KeepsBut [.dt, .st] s s.timerStep ∧
    (s.dt ≠ 0 → s.timerStep.dt.toNat = s.dt.toNat - 1) ∧ (s.dt = 0 → s.timerStep.dt = 0) ∧
    (s.st ≠ 0 → s.timerStep.st.toNat = s.st.toNat - 1) ∧ (s.st = 0 → s.timerStep.st = 0)) ∧
  (∀ s t : State, step s = .next t → t.rs ≠ .faulted → (∀ l rest, s.ports ≠ .reset l :: rest) →
    (s.dt = 0 → (∀ x, decodeWord s.cfg.decodeStrict s.wordAtPC ≠ .instr (.ldDTVx x)) → t.dt = 0) ∧
    (s.st = 0 → (∀ x, decodeWord s.cfg.decodeStrict s.wordAtPC ≠ .instr (.ldSTVx x)) → t.st = 0))

/-- 20_memory.md R53: load copies byte k of the image to 0x200 + k, drops what would pass 0xFFF, writes no other byte
and does not fault. That KS too stays as it was is the model's choice (log entry 8, DESIGN CHOICE), not R53's. -/
def Obligations.LoadCopiesTheImage : Prop :=
  ∀ (s : State) (bytes : List Byte) (rest : List PortEvent), s.MemoryCanonical → s.rs = .loaded →
    s.ports = .load bytes :: rest → ∃ t, step s = .next t ∧ KeepsBut [.mem] (s.setPorts rest) t ∧
      ∀ a, t.mem.read a =
        if h : 0x200 ≤ a ∧ a < 0x200 + bytes.length ∧ a ≤ 0xFFF then bytes[a - 0x200]'(by omega)
        else s.mem.read a

/-- 10_state.md section 9 (D4, D20, D32; log entries 2, 10, 11; log entry 8 for KS, which no port changes): start moves loaded to running and is ignored
otherwise; tick steps the timers of a running machine in independent mode, is ignored when it does not run and is no
port in coupled mode; a load outside loaded has no step; keys outside a running machine have no effect; with nothing
pending a loaded machine waits, and a halted or faulted one has no step. -/
def Obligations.PortsActAsStated : Prop :=
  ∀ (s : State) (rest : List PortEvent),
    (s.ports = .start :: rest → (s.rs = .loaded → step s = .next ((s.setPorts rest).setRS .running)) ∧
      (s.rs ≠ .loaded → step s = .next (s.setPorts rest))) ∧
    (s.ports = .tick :: rest → (s.cfg.timerMode = .coupled → step s = .refused .noTickPort) ∧
      (s.cfg.timerMode = .independent → (s.rs = .running → step s = .next (s.setPorts rest).timerStep) ∧
        (s.rs ≠ .running → step s = .next (s.setPorts rest)))) ∧
    (∀ bytes, s.ports = .load bytes :: rest → s.rs ≠ .loaded → step s = .refused .loadNotAccepted) ∧
    (∀ k, s.ports = .keys k :: rest → s.rs ≠ .running → step s = .next (s.setPorts rest)) ∧
    (s.ports = [] → (s.rs = .loaded → step s = .next s) ∧ (s.rs = .halted → step s = .fault .halted) ∧
      (s.rs = .faulted → step s = .fault .faulted))

/-- 10_state.md R38, 60_exceptions.md R175 (D35), R172 (FR is not overwritten until reset): no step but a reset takes a
machine out of halted or faulted or changes anything in it. That KS too stays as it was is the model's choice (log entry
8, DESIGN CHOICE). -/
def Obligations.OnlyResetLeavesHaltedOrFaulted : Prop :=
  ∀ s t : State, (s.rs = .halted ∨ s.rs = .faulted) → (∀ l rest, s.ports ≠ .reset l :: rest) →
    step s = .next t → KeepsBut [] (s.setPorts s.ports.tail) t

/-! ### Control transfer (41_control.md) -/

/-- R101. -/
def Obligations.JumpSetsPc : Prop :=
  DecodesAs 0xF000 0x1000 (fun w => .jp (w.extractLsb' 0 12)) ∧
  ∀ (nnn : Addr) (s : State), Completes s (exec (.jp nnn) s) [.pc] fun t => t.pc.toNat = nnn.toNat

/-- The offset jump of section 2 (D7: the sum is not reduced to 12 bits); the register is V0 whatever the word's X
nibble. -/
def Obligations.OffsetJumpAddsV0 : Prop :=
  DecodesAs 0xF000 0xB000 (fun w => .jpV0 (w.extractLsb' 0 12)) ∧
  ∀ (nnn : Addr) (s : State), Completes s (exec (.jpV0 nnn) s) [.pc] fun t =>
    t.pc.toNat = (s.readV 0).toNat + nnn.toNat

/-- R106, R107. -/
def Obligations.SkipOnImmediate : Prop :=
  DecodesAs 0xF000 0x3000 (fun w => .seByte (w.extractLsb' 8 4) (w.extractLsb' 0 8)) ∧
  DecodesAs 0xF000 0x4000 (fun w => .sneByte (w.extractLsb' 8 4) (w.extractLsb' 0 8)) ∧
  ∀ (x : Nibble) (nn : Byte) (s : State),
    (Completes s (exec (.seByte x nn) s) [.pc] fun t =>
      (s.readV x = nn → t.pc = s.pc + 2) ∧ (s.readV x ≠ nn → t.pc = s.pc)) ∧
    (Completes s (exec (.sneByte x nn) s) [.pc] fun t =>
      (s.readV x ≠ nn → t.pc = s.pc + 2) ∧ (s.readV x = nn → t.pc = s.pc))

/-- The register skips of section 3, with the words that DECODE_STRICT = false adds (D10); the nibble w[3:0] has no
effect. -/
def Obligations.SkipOnRegisters : Prop :=
  DecodesAs 0xF00F 0x5000 (fun w => .seReg (w.extractLsb' 8 4) (w.extractLsb' 4 4) 0) ∧
  DecodesAs 0xF00F 0x9000 (fun w => .sneReg (w.extractLsb' 8 4) (w.extractLsb' 4 4) 0) ∧
  (∀ w : Word, w &&& 0xF000 = 0x5000 →
    decodeWord false w = .instr (.seReg (w.extractLsb' 8 4) (w.extractLsb' 4 4) (w.extractLsb' 0 4))) ∧
  (∀ w : Word, w &&& 0xF000 = 0x9000 →
    decodeWord false w = .instr (.sneReg (w.extractLsb' 8 4) (w.extractLsb' 4 4) (w.extractLsb' 0 4))) ∧
  ∀ (x y n : Nibble) (s : State),
    (Completes s (exec (.seReg x y n) s) [.pc] fun t =>
      (s.readV x = s.readV y → t.pc = s.pc + 2) ∧ (s.readV x ≠ s.readV y → t.pc = s.pc)) ∧
    (Completes s (exec (.sneReg x y n) s) [.pc] fun t =>
      (s.readV x ≠ s.readV y → t.pc = s.pc + 2) ∧ (s.readV x = s.readV y → t.pc = s.pc))

/-- The return of section 2 (D10 for DECODE_STRICT = false, D18 and D31 for the fault, D27: the slot is not
cleared). -/
def Obligations.ReturnPopsOrUnderflows : Prop :=
  (∀ strict, decodeWord strict 0x00EE = .instr (.ret 0)) ∧
  (∀ w : Word, w &&& 0xF0FF = 0x00EE → decodeWord false w = .instr (.ret (w.extractLsb' 8 4))) ∧
  ∀ (x : Nibble) (s : State),
    (∀ k : Fin 16, s.sp.val = k.val + 1 → Completes s (exec (.ret x) s) [.pc, .sp] fun t =>
      t.pc = s.stack[k] ∧ t.sp.val = k.val) ∧
    (s.sp = 0 → TakesFault s (exec (.ret x) s) .stackUnderflow 0 (encode (.ret x)))

/-- The call of section 2 (D18 and D31 for the fault): S[SP] <- PC, the other slots stay, SP <- SP + 1, PC <- NNN; with
SP = 16 the fault STACK_OVERFLOW. -/
def Obligations.CallPushesOrOverflows : Prop :=
  DecodesAs 0xF000 0x2000 (fun w => .call (w.extractLsb' 0 12)) ∧
  ∀ (nnn : Addr) (s : State),
    (∀ k : Fin 16, s.sp.val = k.val → Completes s (exec (.call nnn) s) [.pc, .sp, .stack] fun t =>
      t.stack[k] = s.pc ∧ (∀ j : Fin 16, j ≠ k → t.stack[j] = s.stack[j]) ∧ t.sp.val = k.val + 1 ∧
      t.pc.toNat = nnn.toNat) ∧
    (s.sp = 16 → TakesFault s (exec (.call nnn) s) .stackOverflow 16 (encode (.call nnn)))

/-- 41_control.md R103, the source's round trip: after a call, a return from any state that has the stack as the call
left it restores PC to the word after the call and SP to its value before it. The frame of the return says that S is
unchanged, the popped slot among it: the spec's own choice D27 (10_state.md R28; log entry 20). -/
def Obligations.CallThenReturnRoundTrip : Prop :=
  ∀ (nnn : Addr) (x : Nibble) (s : State), s.sp.val < 16 → ∃ t, exec (.call nnn) s = .next t ∧
    ∀ u : State, u.stack = t.stack → u.sp = t.sp → ∃ r, exec (.ret x) u = .next r ∧ r.pc = s.pc ∧ r.sp = s.sp ∧
      KeepsBut [.pc, .sp] u r

/-! ### Registers and arithmetic (42_alu.md) -/

/-- R123. -/
def Obligations.LoadImmediateSetsVx : Prop :=
  DecodesAs 0xF000 0x6000 (fun w => .ldByte (w.extractLsb' 8 4) (w.extractLsb' 0 8)) ∧
  ∀ (x : Nibble) (nn : Byte) (s : State), Completes s (exec (.ldByte x nn) s) [.v] fun t =>
    t.readV x = nn ∧ ∀ z, z ≠ x → t.readV z = s.readV z

/-- R124. -/
def Obligations.AddImmediateWritesNoFlag : Prop :=
  DecodesAs 0xF000 0x7000 (fun w => .addByte (w.extractLsb' 8 4) (w.extractLsb' 0 8)) ∧
  ∀ (x : Nibble) (nn : Byte) (s : State), Completes s (exec (.addByte x nn) s) [.v] fun t =>
    (t.readV x).toNat = ((s.readV x).toNat + nn.toNat) % 256 ∧ ∀ z, z ≠ x → t.readV z = s.readV z

/-- R125. -/
def Obligations.CopyRegister : Prop :=
  DecodesAs 0xF00F 0x8000 (fun w => .ldReg (w.extractLsb' 8 4) (w.extractLsb' 4 4)) ∧
  ∀ (x y : Nibble) (s : State), Completes s (exec (.ldReg x y) s) [.v] fun t =>
    t.readV x = s.readV y ∧ ∀ z, z ≠ x → t.readV z = s.readV z

/-- 8XY1, 8XY2, 8XY3 of section 3, bit by bit; VF is unchanged unless X = F (D17). -/
def Obligations.LogicOperationsLeaveVF : Prop :=
  DecodesAs 0xF00F 0x8001 (fun w => .orReg (w.extractLsb' 8 4) (w.extractLsb' 4 4)) ∧
  DecodesAs 0xF00F 0x8002 (fun w => .andReg (w.extractLsb' 8 4) (w.extractLsb' 4 4)) ∧
  DecodesAs 0xF00F 0x8003 (fun w => .xorReg (w.extractLsb' 8 4) (w.extractLsb' 4 4)) ∧
  ∀ (x y : Nibble) (s : State),
    (Completes s (exec (.orReg x y) s) [.v] fun t => (∀ z, z ≠ x → t.readV z = s.readV z) ∧
      ∀ k, (t.readV x).getLsbD k = ((s.readV x).getLsbD k || (s.readV y).getLsbD k)) ∧
    (Completes s (exec (.andReg x y) s) [.v] fun t => (∀ z, z ≠ x → t.readV z = s.readV z) ∧
      ∀ k, (t.readV x).getLsbD k = ((s.readV x).getLsbD k && (s.readV y).getLsbD k)) ∧
    (Completes s (exec (.xorReg x y) s) [.v] fun t => (∀ z, z ≠ x → t.readV z = s.readV z) ∧
      ∀ k, (t.readV x).getLsbD k = ((s.readV x).getLsbD k ^^ (s.readV y).getLsbD k))

/-- 8XY4 of section 3 (D12, D13: operands are read before any write). -/
def Obligations.AddWithCarry : Prop :=
  DecodesAs 0xF00F 0x8004 (fun w => .addReg (w.extractLsb' 8 4) (w.extractLsb' 4 4)) ∧
  ∀ (x y : Nibble) (s : State), Completes s (exec (.addReg x y) s) [.v] fun t =>
    WritesResultAndFlag s t x (((s.readV x).toNat + (s.readV y).toNat) % 256)
      (if (s.readV x).toNat + (s.readV y).toNat > 255 then 1 else 0)

/-- 8XY5 and 8XY7 of section 3, over the integers (D12, D13). -/
def Obligations.SubtractWithNotBorrow : Prop :=
  DecodesAs 0xF00F 0x8005 (fun w => .subReg (w.extractLsb' 8 4) (w.extractLsb' 4 4)) ∧
  DecodesAs 0xF00F 0x8007 (fun w => .subnReg (w.extractLsb' 8 4) (w.extractLsb' 4 4)) ∧
  ∀ (x y : Nibble) (s : State),
    (Completes s (exec (.subReg x y) s) [.v] fun t => ∃ r : Nat,
      (r : Int) = ((s.readV x).toNat - (s.readV y).toNat : Int) % 256 ∧
      WritesResultAndFlag s t x r (if (s.readV x).toNat ≥ (s.readV y).toNat then 1 else 0)) ∧
    (Completes s (exec (.subnReg x y) s) [.v] fun t => ∃ r : Nat,
      (r : Int) = ((s.readV y).toNat - (s.readV x).toNat : Int) % 256 ∧
      WritesResultAndFlag s t x r (if (s.readV y).toNat ≥ (s.readV x).toNat then 1 else 0))

/-- 8XY6 and 8XYE of section 3 (D12, D13): VX is shifted by one whatever VY is, the bit shifted out is the flag. -/
def Obligations.ShiftsByOne : Prop :=
  DecodesAs 0xF00F 0x8006 (fun w => .shr (w.extractLsb' 8 4) (w.extractLsb' 4 4)) ∧
  DecodesAs 0xF00F 0x800E (fun w => .shl (w.extractLsb' 8 4) (w.extractLsb' 4 4)) ∧
  ∀ (x y : Nibble) (s : State),
    (Completes s (exec (.shr x y) s) [.v] fun t =>
      WritesResultAndFlag s t x ((s.readV x).toNat / 2) ((s.readV x).toNat % 2)) ∧
    (Completes s (exec (.shl x y) s) [.v] fun t =>
      WritesResultAndFlag s t x ((s.readV x).toNat * 2 % 256) ((s.readV x).toNat / 128))

/-! ### Index register and memory (43_index_memory.md) -/

/-- R140. -/
def Obligations.LoadIndex : Prop :=
  DecodesAs 0xF000 0xA000 (fun w => .ldI (w.extractLsb' 0 12)) ∧
  ∀ (nnn : Addr) (s : State), Completes s (exec (.ldI nnn) s) [.i] fun t => t.i.toNat = nnn.toNat

/-- FX1E of section 1 (D8: the wrap at 16 bits); no register is written, VF included. -/
def Obligations.AddToIndex : Prop :=
  DecodesAs 0xF0FF 0xF01E (fun w => .addI (w.extractLsb' 8 4)) ∧
  ∀ (x : Nibble) (s : State), Completes s (exec (.addI x) s) [.i] fun t =>
    t.i.toNat = (s.i.toNat + (s.readV x).toNat) % 65536

/-- FX33 of section 2 (D16: I is unchanged): the three decimal digits of VX at I, I + 1, I + 2, no other byte
written. -/
def Obligations.BcdStoresThreeDigits : Prop :=
  DecodesAs 0xF0FF 0xF033 (fun w => .ldB (w.extractLsb' 8 4)) ∧
  ∀ (x : Nibble) (s : State), s.MemoryCanonical → s.operandAddr 2 < 4096 →
    Completes s (exec (.ldB x) s) [.mem] fun t =>
      (∀ a, a ≠ s.operandAddr 0 → a ≠ s.operandAddr 1 → a ≠ s.operandAddr 2 → t.mem.read a = s.mem.read a) ∧
      (t.mem.read (s.operandAddr 0)).toNat ≤ 2 ∧ (t.mem.read (s.operandAddr 1)).toNat ≤ 9 ∧
      (t.mem.read (s.operandAddr 2)).toNat ≤ 9 ∧
      (t.mem.read (s.operandAddr 0)).toNat * 100 + (t.mem.read (s.operandAddr 1)).toNat * 10 +
        (t.mem.read (s.operandAddr 2)).toNat = (s.readV x).toNat

/-- FX55 of section 2 (D16: I is unchanged): V0..VX at I + 0 … I + X, no other byte written. -/
def Obligations.BlockStore : Prop :=
  DecodesAs 0xF0FF 0xF055 (fun w => .storeRegs (w.extractLsb' 8 4)) ∧
  ∀ (x : Nibble) (s : State), s.MemoryCanonical → s.operandAddr x.toNat < 4096 →
    Completes s (exec (.storeRegs x) s) [.mem] fun t =>
      (∀ z : Nibble, z.toNat ≤ x.toNat → t.mem.read (s.operandAddr z.toNat) = s.readV z) ∧
      ∀ a, (a < s.operandAddr 0 ∨ s.operandAddr x.toNat < a) → t.mem.read a = s.mem.read a

/-- FX65 of section 2 (D16: I is unchanged): V0..VX from I + 0 … I + X, the registers above X unchanged. -/
def Obligations.BlockLoad : Prop :=
  DecodesAs 0xF0FF 0xF065 (fun w => .loadRegs (w.extractLsb' 8 4)) ∧
  ∀ (x : Nibble) (s : State), s.operandAddr x.toNat < 4096 →
    Completes s (exec (.loadRegs x) s) [.v] fun t =>
      (∀ z : Nibble, z.toNat ≤ x.toNat → t.readV z = s.mem.read (s.operandAddr z.toNat)) ∧
      ∀ z : Nibble, x.toNat < z.toNat → t.readV z = s.readV z

/-- Section 2 (D16): what FX55 stores FX65 loads back, from any later state with the same I and memory, whatever its
registers hold by then. -/
def Obligations.BlockStoreThenLoadRestores : Prop :=
  ∀ (x : Nibble) (s : State), s.MemoryCanonical → s.operandAddr x.toNat < 4096 →
    ∃ t, exec (.storeRegs x) s = .next t ∧ ∀ u : State, u.i = t.i → u.mem = t.mem →
      Completes u (exec (.loadRegs x) u) [.v] fun r => ∀ z : Nibble, z.toNat ≤ x.toNat → r.readV z = s.readV z

/-- 20_memory.md section 1, 43_index_memory.md R145, 44_display.md R154 (D7, D14, D18, D19, D31): FX33, FX55, FX65 and
DXYN fault when one of their addresses I + k is 4096 or more, and the record names the lowest. For DXYN every row counts,
clipped or not. -/
def Obligations.OutOfBoundsAccessFaults : Prop :=
  ∀ (s : State) (a : Nat) (n : Nat),
    4096 ≤ a → (∃ k, k < n ∧ a = s.i.toNat + k) → (∀ k, k < n → 4096 ≤ s.i.toNat + k → a ≤ s.i.toNat + k) →
    (∀ x : Nibble, n = 3 → TakesFault s (exec (.ldB x) s) .bounds a (encode (.ldB x))) ∧
    (∀ x : Nibble, n = x.toNat + 1 → TakesFault s (exec (.storeRegs x) s) .bounds a (encode (.storeRegs x))) ∧
    (∀ x : Nibble, n = x.toNat + 1 → TakesFault s (exec (.loadRegs x) s) .bounds a (encode (.loadRegs x))) ∧
    (∀ x y m : Nibble, n = m.toNat → TakesFault s (exec (.drw x y m) s) .bounds a (encode (.drw x y m)))

/-- 20_memory.md R66 (D22, derived): the words FX55 stores are what the next fetch from there reads, in big-endian
order. -/
def Obligations.StoredWordIsFetched : Prop :=
  ∀ (x z : Nibble) (s : State), s.MemoryCanonical → s.operandAddr x.toNat < 4096 → z.toNat < x.toNat →
    ∃ t, exec (.storeRegs x) s = .next t ∧
      (t.fetchWord (s.operandAddr z.toNat)).toNat = (s.readV z).toNat * 256 + (s.readV (z + 1)).toNat

/-! ### Display (44_display.md) -/

/-- The clear of section 2, with the words DECODE_STRICT = false adds (D10): every row 0, VF unchanged. -/
def Obligations.ClearZeroesEveryRow : Prop :=
  (∀ strict, decodeWord strict 0x00E0 = .instr (.cls 0)) ∧
  (∀ w : Word, w &&& 0xF0FF = 0x00E0 → decodeWord false w = .instr (.cls (w.extractLsb' 8 4))) ∧
  ∀ (x : Nibble) (s : State), Completes s (exec (.cls x) s) [.display] fun t => ∀ k : Fin 32, t.display[k] = 0

/-- The draw of section 2, pixel by pixel (D14: the origin is read before VF is written): exactly the pixels that the
loops of R152 reach with a sprite bit of 1 are toggled, clipped at the right and lower edges, and VF is 1 iff one of them
was lit before, else 0. -/
def Obligations.DrawTogglesSpritePixels : Prop :=
  DecodesAs 0xF000 0xD000 (fun w => .drw (w.extractLsb' 8 4) (w.extractLsb' 4 4) (w.extractLsb' 0 4)) ∧
  ∀ (x y n : Nibble) (s : State), (n = 0 ∨ s.i.toNat + n.toNat ≤ 4096) →
    Completes s (exec (.drw x y n) s) [.display, .v] fun t =>
      (∀ cx cy : Nat, cx < 64 → cy < 32 →
        (spriteHits s x y n cx cy → t.pixel cx cy = !s.pixel cx cy) ∧
        (¬spriteHits s x y n cx cy → t.pixel cx cy = s.pixel cx cy)) ∧
      ((∃ cx cy, spriteHits s x y n cx cy ∧ s.pixel cx cy = true) → t.readV 0xF = 1) ∧
      ((∀ cx cy, spriteHits s x y n cx cy → s.pixel cx cy = false) → t.readV 0xF = 0) ∧
      ∀ z, z ≠ 0xF → t.readV z = s.readV z

/-- The source's collision property (95_test_vectors.md S7; D14): with the origin in registers other than VF, drawing
the same sprite twice restores every display; on a clear display the first draw gives VF = 0 and the second VF = 1 iff
the sprite has a set bit inside the screen. -/
def Obligations.DrawTwiceRestoresTheDisplay : Prop :=
  ∀ (x y n : Nibble) (s : State), x ≠ 0xF → y ≠ 0xF → (n = 0 ∨ s.i.toNat + n.toNat ≤ 4096) →
    ∃ t u, exec (.drw x y n) s = .next t ∧ exec (.drw x y n) t = .next u ∧ u.display = s.display ∧
      ((∀ k : Fin 32, s.display[k] = 0) → t.readV 0xF = 0 ∧
        ((∃ cx cy, spriteHits s x y n cx cy) → u.readV 0xF = 1) ∧
        ((∀ cx cy, ¬spriteHits s x y n cx cy) → u.readV 0xF = 0))

/-! ### Keypad and timers (45_keys_timers.md) -/

/-- EX9E and EXA1 of section 1 (C2; D15 for an index above 15 under not_held): skip iff key VX is held, released. -/
def Obligations.KeySkips : Prop :=
  DecodesAs 0xF0FF 0xE09E (fun w => .skp (w.extractLsb' 8 4)) ∧
  DecodesAs 0xF0FF 0xE0A1 (fun w => .sknp (w.extractLsb' 8 4)) ∧
  ∀ (x : Nibble) (s : State) (held : Bool),
    ((s.readV x).toNat ≤ 15 ∧ held = s.ks.getLsbD (s.readV x).toNat ∨
      15 < (s.readV x).toNat ∧ s.cfg.keyIndex = .notHeld ∧ held = false) →
    (Completes s (exec (.skp x) s) [.pc] fun t =>
      (held = true → t.pc = s.pc + 2) ∧ (held = false → t.pc = s.pc)) ∧
    (Completes s (exec (.sknp x) s) [.pc] fun t =>
      (held = false → t.pc = s.pc + 2) ∧ (held = true → t.pc = s.pc))

/-- Section 1 (D15, D18; D31 for the record's pc): a key index above 15 faults under KEY_INDEX_POLICY = fault. -/
def Obligations.KeyIndexAbove15Faults : Prop :=
  ∀ (x : Nibble) (s : State), 15 < (s.readV x).toNat → s.cfg.keyIndex = .fault →
    TakesFault s (exec (.skp x) s) .keyIndex (s.readV x).toNat (encode (.skp x)) ∧
    TakesFault s (exec (.sknp x) s) .keyIndex (s.readV x).toNat (encode (.sknp x))

/-- FX0A of section 1 (D30: the rewind): the lowest held key goes to VX and PC stays; with no key held PC goes back by
2 and nothing else changes. -/
def Obligations.WaitForKeyTakesLowestKey : Prop :=
  DecodesAs 0xF0FF 0xF00A (fun w => .ldVxK (w.extractLsb' 8 4)) ∧
  ∀ (x : Nibble) (s : State),
    (∀ k, k < 16 → s.ks.getLsbD k = true → (∀ j, j < k → s.ks.getLsbD j = false) →
      Completes s (exec (.ldVxK x) s) [.v] fun t =>
        (t.readV x).toNat = k ∧ ∀ z, z ≠ x → t.readV z = s.readV z) ∧
    ((∀ k, k < 16 → s.ks.getLsbD k = false) →
      Completes s (exec (.ldVxK x) s) [.pc] fun t => t.pc = s.pc - 2)

/-- The source's property of FX0A ("no forward progress until a key becomes held"; 45_keys_timers.md section 1, D30; each
waiting cycle is a full one, 40_cycle.md section 1): through any number of cycles in which no key is held the machine
keeps running at the same instruction, and only the timers count down, by one a cycle in coupled mode. -/
def Obligations.WaitForKeyHoldsUntilKeyPressed : Prop :=
  ∀ (n : Nat) (s : State) (x : Nibble) (rest : List PortEvent), s.rs = .running → s.pc.toNat ≤ 0xFFE →
    s.ports = List.replicate n (.keys 0) ++ rest →
    decodeWord s.cfg.decodeStrict s.wordAtPC = .instr (.ldVxK x) →
    ∃ t, Sys2Proof.core.run n s = .next t ∧ KeepsBut [.dt, .st, .ks] (s.setPorts rest) t ∧
      (s.cfg.timerMode = .coupled → t.dt.toNat = s.dt.toNat - n ∧ t.st.toNat = s.st.toNat - n) ∧
      (s.cfg.timerMode = .independent → t.dt = s.dt ∧ t.st = s.st)

/-- FX07, FX15, FX18 of section 2. -/
def Obligations.TimerMoves : Prop :=
  DecodesAs 0xF0FF 0xF007 (fun w => .ldVxDT (w.extractLsb' 8 4)) ∧
  DecodesAs 0xF0FF 0xF015 (fun w => .ldDTVx (w.extractLsb' 8 4)) ∧
  DecodesAs 0xF0FF 0xF018 (fun w => .ldSTVx (w.extractLsb' 8 4)) ∧
  ∀ (x : Nibble) (s : State),
    (Completes s (exec (.ldVxDT x) s) [.v] fun t => t.readV x = s.dt ∧ ∀ z, z ≠ x → t.readV z = s.readV z) ∧
    (Completes s (exec (.ldDTVx x) s) [.dt] fun t => t.dt = s.readV x) ∧
    (Completes s (exec (.ldSTVx x) s) [.st] fun t => t.st = s.readV x)

/-- 40_cycle.md R97 (derived there; TIMER_MODE by D20): a timer written by FX15 or FX18 is decremented in the same
cycle, FX07 reads DT before that cycle's decrement; in independent mode no timer step is part of the cycle. -/
def Obligations.TimerStepEndsTheCycle : Prop :=
  ∀ (s : State) (k : Word) (rest : List PortEvent) (x : Nibble), CycleIsNext s k rest →
    ∀ d : Nat, (s.cfg.timerMode = .coupled ∧ d = 1 ∨ s.cfg.timerMode = .independent ∧ d = 0) →
    (decodeWord s.cfg.decodeStrict s.wordAtPC = .instr (.ldDTVx x) → ∃ t, step s = .next t ∧
      t.dt.toNat = (s.readV x).toNat - d ∧ t.st.toNat = s.st.toNat - d) ∧
    (decodeWord s.cfg.decodeStrict s.wordAtPC = .instr (.ldSTVx x) → ∃ t, step s = .next t ∧
      t.st.toNat = (s.readV x).toNat - d ∧ t.dt.toNat = s.dt.toNat - d) ∧
    (decodeWord s.cfg.decodeStrict s.wordAtPC = .instr (.ldVxDT x) → ∃ t, step s = .next t ∧
      t.readV x = s.dt ∧ t.dt.toNat = s.dt.toNat - d)

/-! ### Whole-machine rules -/

/-- 10_state.md R23 to R32, R37 and 20_memory.md R59 (their "written only by"; D16, D18, D27): no instruction that takes no
fault writes a piece of state the spec does not give it. -/
def Obligations.ExecWritesOnlyItsFootprint : Prop :=
  ∀ (i : Instr) (s t : State), exec i s = .next t → t.rs ≠ .faulted → KeepsBut i.footprint s t

/-- 10_state.md R23 (derived there; D17: 8XY1, 8XY2, 8XY3 leave VF): the V registers each instruction writes, and no
others. -/
def Obligations.ExecWritesOnlyNamedRegisters : Prop :=
  ∀ (i : Instr) (s t : State), exec i s = .next t → t.rs ≠ .faulted →
    ∀ z : Nibble, ¬i.mayWriteV z → t.readV z = s.readV z

/-- 10_state.md R39 (D21): the keypad sample reaches a program only through EX9E, EXA1 and FX0A: another instruction that
takes no fault does the same whatever the sample is. -/
def Obligations.KeySampleReachesOnlyKeyInstructions : Prop :=
  ∀ (i : Instr) (s t : State) (k : Word), i.readsKeys = false → exec i s = .next t → t.rs ≠ .faulted →
    exec i (s.setKS k) = .next (t.setKS k)

/-- 10_state.md R32 ("No instruction reads it"; D29): every instruction that takes no fault does the same whatever the
sound timer holds, and only FX18 gives ST a new value. -/
def Obligations.SoundTimerIsReadByNothing : Prop :=
  ∀ (i : Instr) (s t : State) (b : Byte), exec i s = .next t → t.rs ≠ .faulted →
    ((∀ x, i ≠ .ldSTVx x) → exec i (s.setST b) = .next (t.setST b)) ∧
    ((∃ x, i = .ldSTVx x) → exec i (s.setST b) = .next t)
end

