-- ==== Sys2Proof/Laws/Decode.lean ====
section
/-! SUPPORT. The fields of the words the encoder writes, words put together from their fields, and the link
between a row's mask and the fields. -/

namespace Sys2Proof

/-! ### Fields of ind : X : NN -/

section
variable (a b : Nibble) (c : Byte)

@[simp] theorem fieldInd_xnn : fieldInd (a ++ b ++ c) = a := by
  apply BitVec.eq_of_getLsbD_eq
  intro i hi
  simp only [fieldInd, BitVec.getLsbD_extractLsb', BitVec.getLsbD_append]
  simp [hi, show ¬ 12 + i < 8 by omega, show ¬ 12 + i - 8 < 4 by omega, show 12 + i - 8 - 4 = i by omega]

@[simp] theorem fieldX_xnn : fieldX (a ++ b ++ c) = b := by
  apply BitVec.eq_of_getLsbD_eq
  intro i hi
  simp only [fieldX, BitVec.getLsbD_extractLsb', BitVec.getLsbD_append]
  simp [hi]

@[simp] theorem fieldNN_xnn : fieldNN (a ++ b ++ c) = c := by
  apply BitVec.eq_of_getLsbD_eq
  intro i hi
  simp only [fieldNN, BitVec.getLsbD_extractLsb', BitVec.getLsbD_append]
  simp [hi]

theorem fieldY_xnn : fieldY (a ++ b ++ c) = c.extractLsb' 4 4 := by
  apply BitVec.eq_of_getLsbD_eq
  intro i hi
  simp only [fieldY, BitVec.getLsbD_extractLsb', BitVec.getLsbD_append]
  simp [hi, show 4 + i < 8 by omega]

theorem fieldN_xnn : fieldN (a ++ b ++ c) = c.extractLsb' 0 4 := by
  apply BitVec.eq_of_getLsbD_eq
  intro i hi
  simp only [fieldN, BitVec.getLsbD_extractLsb', BitVec.getLsbD_append]
  simp [hi, show i < 8 by omega]

end

/-! ### Fields of ind : NNN -/

section
variable (a : Nibble) (c : Addr)

@[simp] theorem fieldInd_nnn : fieldInd (a ++ c) = a := by
  apply BitVec.eq_of_getLsbD_eq
  intro i hi
  simp only [fieldInd, BitVec.getLsbD_extractLsb', BitVec.getLsbD_append]
  simp [hi]

@[simp] theorem fieldNNN_nnn : fieldNNN (a ++ c) = c := by
  apply BitVec.eq_of_getLsbD_eq
  intro i hi
  simp only [fieldNNN, BitVec.getLsbD_extractLsb', BitVec.getLsbD_append]
  simp [hi]

end

/-! ### Fields of ind : X : Y : N -/

section
variable (a b c d : Nibble)

@[simp] theorem fieldInd_xyn : fieldInd (a ++ b ++ c ++ d) = a := by
  apply BitVec.eq_of_getLsbD_eq
  intro i hi
  simp only [fieldInd, BitVec.getLsbD_extractLsb', BitVec.getLsbD_append]
  simp [hi, show ¬ 12 + i < 4 by omega, show ¬ 12 + i - 4 < 4 by omega, show ¬ 12 + i - 4 - 4 < 4 by omega,
    show 12 + i - 4 - 4 - 4 = i by omega]

@[simp] theorem fieldX_xyn : fieldX (a ++ b ++ c ++ d) = b := by
  apply BitVec.eq_of_getLsbD_eq
  intro i hi
  simp only [fieldX, BitVec.getLsbD_extractLsb', BitVec.getLsbD_append]
  simp [hi, show ¬ 8 + i < 4 by omega, show ¬ 8 + i - 4 < 4 by omega, show 8 + i - 4 - 4 = i by omega]

@[simp] theorem fieldY_xyn : fieldY (a ++ b ++ c ++ d) = c := by
  apply BitVec.eq_of_getLsbD_eq
  intro i hi
  simp only [fieldY, BitVec.getLsbD_extractLsb', BitVec.getLsbD_append]
  simp [hi]

@[simp] theorem fieldN_xyn : fieldN (a ++ b ++ c ++ d) = d := by
  apply BitVec.eq_of_getLsbD_eq
  intro i hi
  simp only [fieldN, BitVec.getLsbD_extractLsb', BitVec.getLsbD_append]
  simp [hi]

end

/-! ### A word is its fields -/

/-- Two words with the same four nibbles are equal. -/
theorem word_ext {u w : Word} (h1 : fieldInd u = fieldInd w) (h2 : fieldX u = fieldX w)
    (h3 : fieldY u = fieldY w) (h4 : fieldN u = fieldN w) : u = w := by
  apply BitVec.eq_of_getLsbD_eq
  intro i hi
  have bit : ∀ (k : Nat), k < 4 →
      u.getLsbD (12 + k) = w.getLsbD (12 + k) ∧ u.getLsbD (8 + k) = w.getLsbD (8 + k) ∧
      u.getLsbD (4 + k) = w.getLsbD (4 + k) ∧ u.getLsbD (0 + k) = w.getLsbD (0 + k) := by
    intro k hk
    have e1 := congrArg (fun v => BitVec.getLsbD v k) h1
    have e2 := congrArg (fun v => BitVec.getLsbD v k) h2
    have e3 := congrArg (fun v => BitVec.getLsbD v k) h3
    have e4 := congrArg (fun v => BitVec.getLsbD v k) h4
    simp only [fieldInd, fieldX, fieldY, fieldN, BitVec.getLsbD_extractLsb', hk, decide_true, Bool.true_and]
      at e1 e2 e3 e4
    exact ⟨e1, e2, e3, e4⟩
  obtain ⟨b1, b2, b3, b4⟩ := bit (i % 4) (Nat.mod_lt _ (by decide))
  have : i = 12 + i % 4 ∨ i = 8 + i % 4 ∨ i = 4 + i % 4 ∨ i = 0 + i % 4 := by omega
  rcases this with h | h | h | h <;> rw [h] <;> assumption

theorem fieldY_of_NN (w : Word) : fieldY w = (fieldNN w).extractLsb' 4 4 := by
  apply BitVec.eq_of_getLsbD_eq
  intro i hi
  simp [fieldY, fieldNN, hi]

theorem fieldN_of_NN (w : Word) : fieldN w = (fieldNN w).extractLsb' 0 4 := by
  apply BitVec.eq_of_getLsbD_eq
  intro i hi
  simp [fieldN, fieldNN, hi]

/-- A word put together from ind, X and NN. -/
theorem word_of_xnn (w : Word) : fieldInd w ++ fieldX w ++ fieldNN w = w :=
  word_ext (fieldInd_xnn ..) (fieldX_xnn ..) ((fieldY_xnn ..).trans (fieldY_of_NN w).symm)
    ((fieldN_xnn ..).trans (fieldN_of_NN w).symm)

/-- A word put together from ind, X, Y and N. -/
theorem word_of_xyn (w : Word) : fieldInd w ++ fieldX w ++ fieldY w ++ fieldN w = w :=
  word_ext (fieldInd_xyn ..) (fieldX_xyn ..) (fieldY_xyn ..) (fieldN_xyn ..)

/-- A word put together from ind and NNN. -/
theorem word_of_nnn (w : Word) : fieldInd w ++ fieldNNN w = w := by
  apply BitVec.eq_of_getLsbD_eq
  intro i hi
  simp only [fieldInd, fieldNNN, BitVec.getLsbD_append, BitVec.getLsbD_extractLsb']
  by_cases h : i < 12
  · simp [h]
  · simp [h, show i - 12 < 4 by omega, show 12 + (i - 12) = i by omega]

/-! ### Masks -/

section
variable (u w : Word)

@[simp] theorem fieldInd_and : fieldInd (u &&& w) = fieldInd u &&& fieldInd w := by
  simp [fieldInd, BitVec.extractLsb'_and]

@[simp] theorem fieldX_and : fieldX (u &&& w) = fieldX u &&& fieldX w := by
  simp [fieldX, BitVec.extractLsb'_and]

@[simp] theorem fieldY_and : fieldY (u &&& w) = fieldY u &&& fieldY w := by
  simp [fieldY, BitVec.extractLsb'_and]

@[simp] theorem fieldN_and : fieldN (u &&& w) = fieldN u &&& fieldN w := by
  simp [fieldN, BitVec.extractLsb'_and]

@[simp] theorem fieldNN_and : fieldNN (u &&& w) = fieldNN u &&& fieldNN w := by
  simp [fieldNN, BitVec.extractLsb'_and]

end

/-- The masks of the rows, nibble by nibble: a word matches a row iff its compared fields are the row's. -/
theorem and_eq_iff_fields (w mask mtch : Word) :
    w &&& mask = mtch ↔ fieldInd w &&& fieldInd mask = fieldInd mtch ∧
      fieldX w &&& fieldX mask = fieldX mtch ∧ fieldY w &&& fieldY mask = fieldY mtch ∧
      fieldN w &&& fieldN mask = fieldN mtch := by
  constructor
  · rintro rfl
    simp
  · rintro ⟨h1, h2, h3, h4⟩
    exact word_ext (by simpa using h1) (by simpa using h2) (by simpa using h3) (by simpa using h4)

/-! The encoder's words under the masks of R74 and R75. -/

theorem fields_F000 : fieldInd 0xF000#16 = BitVec.allOnes 4 ∧ fieldX 0xF000#16 = 0 ∧ fieldY 0xF000#16 = 0 ∧
    fieldN 0xF000#16 = 0 := by decide

theorem fields_F00F : fieldInd 0xF00F#16 = BitVec.allOnes 4 ∧ fieldX 0xF00F#16 = 0 ∧ fieldY 0xF00F#16 = 0 ∧
    fieldN 0xF00F#16 = BitVec.allOnes 4 := by decide

theorem fields_F0FF : fieldInd 0xF0FF#16 = BitVec.allOnes 4 ∧ fieldX 0xF0FF#16 = 0 ∧
    fieldY 0xF0FF#16 = BitVec.allOnes 4 ∧ fieldN 0xF0FF#16 = BitVec.allOnes 4 := by decide

@[simp] theorem nibble_and_ones (a : Nibble) : a &&& 15#4 = a := BitVec.and_allOnes

theorem word_and_F000 (w : Word) : w &&& 0xF000 = fieldInd w ++ 0#4 ++ 0#4 ++ 0#4 := by
  apply word_ext <;> simp [fields_F000]

theorem word_and_F00F (w : Word) : w &&& 0xF00F = fieldInd w ++ 0#4 ++ 0#4 ++ fieldN w := by
  apply word_ext <;> simp [fields_F00F]

theorem word_and_F0FF (w : Word) : w &&& 0xF0FF = fieldInd w ++ 0#4 ++ fieldNN w := by
  apply word_ext <;> simp [fields_F0FF, fieldY_xnn, fieldN_xnn, ← fieldY_of_NN, ← fieldN_of_NN]

/-! What a match against a row says of the word's fields. -/

section
variable {w m : Word}

theorem ind_of_and_F000 (h : w &&& 0xF000 = m) : fieldInd w = fieldInd m := by
  rw [← h, word_and_F000, fieldInd_xyn]

theorem ind_of_and_F00F (h : w &&& 0xF00F = m) : fieldInd w = fieldInd m := by
  rw [← h, word_and_F00F, fieldInd_xyn]

theorem n_of_and_F00F (h : w &&& 0xF00F = m) : fieldN w = fieldN m := by
  rw [← h, word_and_F00F, fieldN_xyn]

theorem ind_of_and_F0FF (h : w &&& 0xF0FF = m) : fieldInd w = fieldInd m := by
  rw [← h, word_and_F0FF, fieldInd_xnn]

theorem nn_of_and_F0FF (h : w &&& 0xF0FF = m) : fieldNN w = fieldNN m := by
  rw [← h, word_and_F0FF, fieldNN_xnn]

end

/-- The two bytes of a word put together again are the word. -/
theorem wordOfBytes_of_word (w : Word) : wordOfBytes (w.extractLsb' 8 8) (w.extractLsb' 0 8) = w := by
  apply BitVec.eq_of_getLsbD_eq
  intro i hi
  simp only [wordOfBytes, BitVec.getLsbD_append, BitVec.getLsbD_extractLsb']
  by_cases h : i < 8
  · simp [h]
  · simp [h, show i - 8 < 8 by omega, show 8 + (i - 8) = i by omega]

end Sys2Proof
end

