-- ==== Sys2Proof/Laws/Memory.lean ====
section
/-! SUPPORT. The laws of memory: read after write, every operation keeps the canonical form, and what a block
write, a load and a fresh memory read as. -/

namespace Sys2Proof.Machine

/-- Every listed address is at least `lo`. -/
def Memory.From (lo : Nat) (m : Memory) : Prop := ∀ c ∈ m, lo ≤ c.1

/-- The canonical form as a proposition by recursion: the first entry is a listed byte in range and the rest lies
above it. -/
def Memory.Canon : Memory → Prop
  | [] => True
  | (a, x) :: m => a < memSize ∧ x ≠ Memory.unlisted ∧ Memory.From (a + 1) m ∧ Memory.Canon m

theorem Memory.From.mono {lo hi : Nat} {m : Memory} (h : lo ≤ hi) (hm : m.From hi) : m.From lo :=
  fun c hc => Nat.le_trans h (hm c hc)

theorem Memory.rising_some {lo : Nat} {m : Memory} :
    Memory.rising (some lo) m = true ↔ m.From (lo + 1) ∧ Memory.rising none m = true := by
  induction m generalizing lo with
  | nil => simp [Memory.rising, Memory.From]
  | cons c m ih =>
    obtain ⟨a, x⟩ := c
    simp only [Memory.rising, Option.all_some, Option.all_none, Bool.true_and, Bool.and_eq_true,
      decide_eq_true_eq]
    constructor
    · rintro ⟨h1, h2⟩
      refine ⟨fun c hc => ?_, h2⟩
      rcases List.mem_cons.1 hc with rfl | hc
      · exact h1
      · have := (ih.1 h2).1 c hc
        omega
    · rintro ⟨h1, h2⟩
      exact ⟨h1 (a, x) List.mem_cons_self, h2⟩

theorem Memory.wf_iff_canon {m : Memory} : m.wf = true ↔ m.Canon := by
  induction m with
  | nil => simp [Memory.wf, Memory.rising, Memory.Canon]
  | cons c m ih =>
    obtain ⟨a, x⟩ := c
    simp only [Memory.wf, Bool.and_eq_true, List.all_cons, decide_eq_true_eq] at ih ⊢
    simp only [Memory.rising, Option.all_none, Bool.true_and, Memory.Canon, Memory.rising_some]
    constructor
    · rintro ⟨⟨h1, h2⟩, ⟨h3, h4⟩, h5⟩
      exact ⟨h3, h4, h1, ih.1 ⟨h2, h5⟩⟩
    · rintro ⟨h3, h4, h1, h2⟩
      exact ⟨⟨h1, (ih.2 h2).1⟩, ⟨h3, h4⟩, (ih.2 h2).2⟩

theorem Memory.read_below {lo a : Nat} {m : Memory} (h : m.From lo) (ha : a < lo) :
    m.read a = Memory.unlisted := by
  cases m with
  | nil => rfl
  | cons c m =>
    obtain ⟨b, x⟩ := c
    have : lo ≤ b := h (b, x) List.mem_cons_self
    simp [Memory.read, show a < b by omega]

theorem Memory.From.write {lo : Nat} {m : Memory} (h : m.From lo) {a : Nat} (ha : lo ≤ a) (x : Byte) :
    (m.write a x).From lo := by
  induction m with
  | nil => simp only [Memory.write]; split <;> simp [Memory.From, ha]
  | cons c m ih =>
    obtain ⟨b, y⟩ := c
    have hb : lo ≤ b := h (b, y) List.mem_cons_self
    have hm : Memory.From lo m := fun c hc => h c (List.mem_cons_of_mem _ hc)
    have hw := ih hm
    simp only [Memory.write]
    intro c hc
    split at hc
    · split at hc <;> simp only [List.mem_cons] at hc
      · rcases hc with rfl | hc <;> [exact hb; exact hm c hc]
      · rcases hc with rfl | rfl | hc <;> [exact ha; exact hb; exact hm c hc]
    · split at hc
      · split at hc
        · exact hm c hc
        · rcases List.mem_cons.1 hc with rfl | hc <;> [exact ha; exact hm c hc]
      · rcases List.mem_cons.1 hc with rfl | hc <;> [exact hb; exact hw c hc]

/-- A write inside memory keeps the canonical form. -/
theorem Memory.Canon.write {m : Memory} (h : m.Canon) {a : Nat} (ha : a < memSize) (x : Byte) :
    (m.write a x).Canon := by
  induction m with
  | nil =>
    simp only [Memory.write]
    split
    · trivial
    · exact ⟨ha, ‹_›, by simp [Memory.From], trivial⟩
  | cons c m ih =>
    obtain ⟨b, y⟩ := c
    obtain ⟨h1, h2, h3, h4⟩ := h
    simp only [Memory.write]
    split
    · split
      · exact ⟨h1, h2, h3, h4⟩
      · refine ⟨ha, ‹_›, fun c hc => ?_, h1, h2, h3, h4⟩
        rcases List.mem_cons.1 hc with rfl | hc
        · simpa using ‹a < b›
        · have := h3 c hc; omega
    · split
      · split
        · exact h4
        · exact ⟨ha, ‹_›, by subst_vars; exact h3, h4⟩
      · exact ⟨h1, h2, h3.write (by omega) x, ih h4⟩

/-- A read of the address written gives the byte written. -/
theorem Memory.read_write_same {m : Memory} (h : m.Canon) (a : Nat) (x : Byte) : (m.write a x).read a = x := by
  induction m with
  | nil => simp only [Memory.write]; split <;> simp_all [Memory.read]
  | cons c m ih =>
    obtain ⟨b, y⟩ := c
    obtain ⟨-, -, h3, h4⟩ := h
    simp only [Memory.write]
    split
    · split <;> simp_all [Memory.read]
    · split
      · subst_vars
        split
        · rw [Memory.read_below h3 (by omega)]; simp_all
        · simp [Memory.read]
      · simp_all [Memory.read]

/-- A read of any other address gives what it gave before. -/
theorem Memory.read_write_other {m : Memory} (h : m.Canon) {a b : Nat} (hab : b ≠ a) (x : Byte) :
    (m.write a x).read b = m.read b := by
  induction m with
  | nil => simp only [Memory.write]; split <;> simp [Memory.read, hab]
  | cons c m ih =>
    obtain ⟨d, y⟩ := c
    obtain ⟨-, -, h3, h4⟩ := h
    simp only [Memory.write]
    split
    · split
      · rfl
      · by_cases h1 : b < a
        · simp [Memory.read, h1, show b < d by omega]
        · simp [Memory.read, h1, hab]
    · split
      · subst_vars
        by_cases h1 : b < d
        · split <;> simp [Memory.read, h1, Memory.read_below h3 (show b < d + 1 by omega)]
        · split <;> simp [Memory.read, h1, hab]
      · simp [Memory.read, ih h4]

/-- Read after write, in one equation. -/
theorem Memory.read_write {m : Memory} (h : m.Canon) (a b : Nat) (x : Byte) :
    (m.write a x).read b = if b = a then x else m.read b := by
  split
  · subst_vars; exact Memory.read_write_same h _ _
  · exact Memory.read_write_other h ‹_› _

theorem Memory.Canon.writeBytes {m : Memory} (h : m.Canon) {a : Nat} {xs : List Byte}
    (ha : a + xs.length ≤ memSize) : (m.writeBytes a xs).Canon := by
  induction xs generalizing m a with
  | nil => exact h
  | cons x xs ih =>
    simp only [List.length_cons] at ha
    exact ih (h.write (by omega) x) (by omega)

/-- A block write stores byte k at a + k and leaves every other address alone. -/
theorem Memory.read_writeBytes {m : Memory} (h : m.Canon) {a : Nat} {xs : List Byte}
    (ha : a + xs.length ≤ memSize) (b : Nat) :
    (m.writeBytes a xs).read b =
      if hb : a ≤ b ∧ b < a + xs.length then xs[b - a]'(by omega) else m.read b := by
  induction xs generalizing m a with
  | nil => simp [Memory.writeBytes]
  | cons x xs ih =>
    simp only [List.length_cons] at ha ⊢
    rw [Memory.writeBytes, ih (h.write (by omega) x) (by omega), Memory.read_write h]
    by_cases h1 : b = a
    · subst h1
      simp
    · by_cases h2 : a + 1 ≤ b ∧ b < a + 1 + xs.length
      · rw [dif_pos h2, dif_pos (by omega), List.getElem_cons, dif_neg (by omega)]
        congr 1
      · rw [dif_neg h2, if_neg h1, dif_neg (by omega)]

theorem Memory.Canon.ofCells (cs : List Host.Cell) : (Memory.ofCells cs).Canon := by
  induction cs with
  | nil => trivial
  | cons c cs ih =>
    obtain ⟨a, x⟩ := c
    simp only [Memory.ofCells]
    split
    · exact ih.write ‹_› x
    · exact ih

theorem Memory.Canon.loadAt {m : Memory} (h : m.Canon) (a : Nat) (xs : List Byte) : (m.loadAt a xs).Canon := by
  induction xs generalizing m a with
  | nil => exact h
  | cons x xs ih =>
    simp only [Memory.loadAt]
    split
    · exact ih (h.write ‹_› x) _
    · exact ih h _

/-- A load puts byte k at a + k where that is below 4096 and leaves every other address alone. -/
theorem Memory.read_loadAt {m : Memory} (h : m.Canon) (a : Nat) (xs : List Byte) (b : Nat) :
    (m.loadAt a xs).read b =
      if hb : a ≤ b ∧ b < a + xs.length ∧ b < memSize then xs[b - a]'(by omega) else m.read b := by
  induction xs generalizing m a with
  | nil => simp [Memory.loadAt]; omega
  | cons x xs ih =>
    have hstep : ∀ m' : Memory, m'.Canon → (∀ d, d ≠ a → m'.read d = m.read d) → (a < memSize → m'.read a = x) →
        (¬a < memSize → m'.read a = m.read a) →
        (m'.loadAt (a + 1) xs).read b = if hb : a ≤ b ∧ b < a + (x :: xs).length ∧ b < memSize then
          (x :: xs)[b - a]'(by omega) else m.read b := by
      intro m' hc ho hs hn
      rw [ih hc]
      simp only [List.length_cons]
      by_cases h1 : b = a
      · subst h1
        by_cases h2 : b < memSize
        · simp [h2, hs h2]
        · simp [h2, hn h2]
      · by_cases h2 : a + 1 ≤ b ∧ b < a + 1 + xs.length ∧ b < memSize
        · rw [dif_pos h2, dif_pos (by omega), List.getElem_cons, dif_neg (by omega)]
          congr 1
        · rw [dif_neg h2, dif_neg (by omega), ho b h1]
    simp only [Memory.loadAt]
    split
    · exact hstep _ (h.write ‹_› x) (fun d hd => Memory.read_write_other h hd x)
        (fun _ => Memory.read_write_same h a x) (fun hn => absurd ‹_› hn)
    · exact hstep _ h (fun _ _ => rfl) (fun hn => absurd hn ‹_›) (fun _ => rfl)

end Sys2Proof.Machine
end

