-- ==== Sys2Proof/Laws/State.lean ====
section
/-! SUPPORT. One lemma per field per update of State, each true by rfl, so that no proof unfolds a record
update. -/

namespace Sys2Proof.Machine

variable (s : State)

/-! writeV -/

@[simp] theorem State.writeV_v (x : Nibble) (b : Byte) : (s.writeV x b).v = s.v.set x.toNat b := rfl
@[simp] theorem State.writeV_i (x : Nibble) (b : Byte) : (s.writeV x b).i = s.i := rfl
@[simp] theorem State.writeV_pc (x : Nibble) (b : Byte) : (s.writeV x b).pc = s.pc := rfl
@[simp] theorem State.writeV_stack (x : Nibble) (b : Byte) : (s.writeV x b).stack = s.stack := rfl
@[simp] theorem State.writeV_sp (x : Nibble) (b : Byte) : (s.writeV x b).sp = s.sp := rfl
@[simp] theorem State.writeV_dt (x : Nibble) (b : Byte) : (s.writeV x b).dt = s.dt := rfl
@[simp] theorem State.writeV_st (x : Nibble) (b : Byte) : (s.writeV x b).st = s.st := rfl
@[simp] theorem State.writeV_display (x : Nibble) (b : Byte) : (s.writeV x b).display = s.display := rfl
@[simp] theorem State.writeV_mem (x : Nibble) (b : Byte) : (s.writeV x b).mem = s.mem := rfl
@[simp] theorem State.writeV_rs (x : Nibble) (b : Byte) : (s.writeV x b).rs = s.rs := rfl
@[simp] theorem State.writeV_fr (x : Nibble) (b : Byte) : (s.writeV x b).fr = s.fr := rfl
@[simp] theorem State.writeV_ks (x : Nibble) (b : Byte) : (s.writeV x b).ks = s.ks := rfl
@[simp] theorem State.writeV_cfg (x : Nibble) (b : Byte) : (s.writeV x b).cfg = s.cfg := rfl
@[simp] theorem State.writeV_ports (x : Nibble) (b : Byte) : (s.writeV x b).ports = s.ports := rfl
@[simp] theorem State.writeV_draws (x : Nibble) (b : Byte) : (s.writeV x b).draws = s.draws := rfl

/-! setI -/

@[simp] theorem State.setI_v (w : Word) : (s.setI w).v = s.v := rfl
@[simp] theorem State.setI_i (w : Word) : (s.setI w).i = w := rfl
@[simp] theorem State.setI_pc (w : Word) : (s.setI w).pc = s.pc := rfl
@[simp] theorem State.setI_stack (w : Word) : (s.setI w).stack = s.stack := rfl
@[simp] theorem State.setI_sp (w : Word) : (s.setI w).sp = s.sp := rfl
@[simp] theorem State.setI_dt (w : Word) : (s.setI w).dt = s.dt := rfl
@[simp] theorem State.setI_st (w : Word) : (s.setI w).st = s.st := rfl
@[simp] theorem State.setI_display (w : Word) : (s.setI w).display = s.display := rfl
@[simp] theorem State.setI_mem (w : Word) : (s.setI w).mem = s.mem := rfl
@[simp] theorem State.setI_rs (w : Word) : (s.setI w).rs = s.rs := rfl
@[simp] theorem State.setI_fr (w : Word) : (s.setI w).fr = s.fr := rfl
@[simp] theorem State.setI_ks (w : Word) : (s.setI w).ks = s.ks := rfl
@[simp] theorem State.setI_cfg (w : Word) : (s.setI w).cfg = s.cfg := rfl
@[simp] theorem State.setI_ports (w : Word) : (s.setI w).ports = s.ports := rfl
@[simp] theorem State.setI_draws (w : Word) : (s.setI w).draws = s.draws := rfl
@[simp] theorem State.readV_setI (w : Word) (z : Nibble) : (s.setI w).readV z = s.readV z := rfl

/-! setPC -/

@[simp] theorem State.setPC_v (w : Word) : (s.setPC w).v = s.v := rfl
@[simp] theorem State.setPC_i (w : Word) : (s.setPC w).i = s.i := rfl
@[simp] theorem State.setPC_pc (w : Word) : (s.setPC w).pc = w := rfl
@[simp] theorem State.setPC_stack (w : Word) : (s.setPC w).stack = s.stack := rfl
@[simp] theorem State.setPC_sp (w : Word) : (s.setPC w).sp = s.sp := rfl
@[simp] theorem State.setPC_dt (w : Word) : (s.setPC w).dt = s.dt := rfl
@[simp] theorem State.setPC_st (w : Word) : (s.setPC w).st = s.st := rfl
@[simp] theorem State.setPC_display (w : Word) : (s.setPC w).display = s.display := rfl
@[simp] theorem State.setPC_mem (w : Word) : (s.setPC w).mem = s.mem := rfl
@[simp] theorem State.setPC_rs (w : Word) : (s.setPC w).rs = s.rs := rfl
@[simp] theorem State.setPC_fr (w : Word) : (s.setPC w).fr = s.fr := rfl
@[simp] theorem State.setPC_ks (w : Word) : (s.setPC w).ks = s.ks := rfl
@[simp] theorem State.setPC_cfg (w : Word) : (s.setPC w).cfg = s.cfg := rfl
@[simp] theorem State.setPC_ports (w : Word) : (s.setPC w).ports = s.ports := rfl
@[simp] theorem State.setPC_draws (w : Word) : (s.setPC w).draws = s.draws := rfl
@[simp] theorem State.readV_setPC (w : Word) (z : Nibble) : (s.setPC w).readV z = s.readV z := rfl

/-! setSlot -/

@[simp] theorem State.setSlot_v (k : Fin 16) (w : Word) : (s.setSlot k w).v = s.v := rfl
@[simp] theorem State.setSlot_i (k : Fin 16) (w : Word) : (s.setSlot k w).i = s.i := rfl
@[simp] theorem State.setSlot_pc (k : Fin 16) (w : Word) : (s.setSlot k w).pc = s.pc := rfl
@[simp] theorem State.setSlot_stack (k : Fin 16) (w : Word) : (s.setSlot k w).stack = s.stack.set k.val w := rfl
@[simp] theorem State.setSlot_sp (k : Fin 16) (w : Word) : (s.setSlot k w).sp = s.sp := rfl
@[simp] theorem State.setSlot_dt (k : Fin 16) (w : Word) : (s.setSlot k w).dt = s.dt := rfl
@[simp] theorem State.setSlot_st (k : Fin 16) (w : Word) : (s.setSlot k w).st = s.st := rfl
@[simp] theorem State.setSlot_display (k : Fin 16) (w : Word) : (s.setSlot k w).display = s.display := rfl
@[simp] theorem State.setSlot_mem (k : Fin 16) (w : Word) : (s.setSlot k w).mem = s.mem := rfl
@[simp] theorem State.setSlot_rs (k : Fin 16) (w : Word) : (s.setSlot k w).rs = s.rs := rfl
@[simp] theorem State.setSlot_fr (k : Fin 16) (w : Word) : (s.setSlot k w).fr = s.fr := rfl
@[simp] theorem State.setSlot_ks (k : Fin 16) (w : Word) : (s.setSlot k w).ks = s.ks := rfl
@[simp] theorem State.setSlot_cfg (k : Fin 16) (w : Word) : (s.setSlot k w).cfg = s.cfg := rfl
@[simp] theorem State.setSlot_ports (k : Fin 16) (w : Word) : (s.setSlot k w).ports = s.ports := rfl
@[simp] theorem State.setSlot_draws (k : Fin 16) (w : Word) : (s.setSlot k w).draws = s.draws := rfl
@[simp] theorem State.readV_setSlot (k : Fin 16) (w : Word) (z : Nibble) : (s.setSlot k w).readV z = s.readV z := rfl

/-! setSP -/

@[simp] theorem State.setSP_v (n : Fin 17) : (s.setSP n).v = s.v := rfl
@[simp] theorem State.setSP_i (n : Fin 17) : (s.setSP n).i = s.i := rfl
@[simp] theorem State.setSP_pc (n : Fin 17) : (s.setSP n).pc = s.pc := rfl
@[simp] theorem State.setSP_stack (n : Fin 17) : (s.setSP n).stack = s.stack := rfl
@[simp] theorem State.setSP_sp (n : Fin 17) : (s.setSP n).sp = n := rfl
@[simp] theorem State.setSP_dt (n : Fin 17) : (s.setSP n).dt = s.dt := rfl
@[simp] theorem State.setSP_st (n : Fin 17) : (s.setSP n).st = s.st := rfl
@[simp] theorem State.setSP_display (n : Fin 17) : (s.setSP n).display = s.display := rfl
@[simp] theorem State.setSP_mem (n : Fin 17) : (s.setSP n).mem = s.mem := rfl
@[simp] theorem State.setSP_rs (n : Fin 17) : (s.setSP n).rs = s.rs := rfl
@[simp] theorem State.setSP_fr (n : Fin 17) : (s.setSP n).fr = s.fr := rfl
@[simp] theorem State.setSP_ks (n : Fin 17) : (s.setSP n).ks = s.ks := rfl
@[simp] theorem State.setSP_cfg (n : Fin 17) : (s.setSP n).cfg = s.cfg := rfl
@[simp] theorem State.setSP_ports (n : Fin 17) : (s.setSP n).ports = s.ports := rfl
@[simp] theorem State.setSP_draws (n : Fin 17) : (s.setSP n).draws = s.draws := rfl
@[simp] theorem State.readV_setSP (n : Fin 17) (z : Nibble) : (s.setSP n).readV z = s.readV z := rfl

/-! setDT -/

@[simp] theorem State.setDT_v (b : Byte) : (s.setDT b).v = s.v := rfl
@[simp] theorem State.setDT_i (b : Byte) : (s.setDT b).i = s.i := rfl
@[simp] theorem State.setDT_pc (b : Byte) : (s.setDT b).pc = s.pc := rfl
@[simp] theorem State.setDT_stack (b : Byte) : (s.setDT b).stack = s.stack := rfl
@[simp] theorem State.setDT_sp (b : Byte) : (s.setDT b).sp = s.sp := rfl
@[simp] theorem State.setDT_dt (b : Byte) : (s.setDT b).dt = b := rfl
@[simp] theorem State.setDT_st (b : Byte) : (s.setDT b).st = s.st := rfl
@[simp] theorem State.setDT_display (b : Byte) : (s.setDT b).display = s.display := rfl
@[simp] theorem State.setDT_mem (b : Byte) : (s.setDT b).mem = s.mem := rfl
@[simp] theorem State.setDT_rs (b : Byte) : (s.setDT b).rs = s.rs := rfl
@[simp] theorem State.setDT_fr (b : Byte) : (s.setDT b).fr = s.fr := rfl
@[simp] theorem State.setDT_ks (b : Byte) : (s.setDT b).ks = s.ks := rfl
@[simp] theorem State.setDT_cfg (b : Byte) : (s.setDT b).cfg = s.cfg := rfl
@[simp] theorem State.setDT_ports (b : Byte) : (s.setDT b).ports = s.ports := rfl
@[simp] theorem State.setDT_draws (b : Byte) : (s.setDT b).draws = s.draws := rfl
@[simp] theorem State.readV_setDT (b : Byte) (z : Nibble) : (s.setDT b).readV z = s.readV z := rfl

/-! setST -/

@[simp] theorem State.setST_v (b : Byte) : (s.setST b).v = s.v := rfl
@[simp] theorem State.setST_i (b : Byte) : (s.setST b).i = s.i := rfl
@[simp] theorem State.setST_pc (b : Byte) : (s.setST b).pc = s.pc := rfl
@[simp] theorem State.setST_stack (b : Byte) : (s.setST b).stack = s.stack := rfl
@[simp] theorem State.setST_sp (b : Byte) : (s.setST b).sp = s.sp := rfl
@[simp] theorem State.setST_dt (b : Byte) : (s.setST b).dt = s.dt := rfl
@[simp] theorem State.setST_st (b : Byte) : (s.setST b).st = b := rfl
@[simp] theorem State.setST_display (b : Byte) : (s.setST b).display = s.display := rfl
@[simp] theorem State.setST_mem (b : Byte) : (s.setST b).mem = s.mem := rfl
@[simp] theorem State.setST_rs (b : Byte) : (s.setST b).rs = s.rs := rfl
@[simp] theorem State.setST_fr (b : Byte) : (s.setST b).fr = s.fr := rfl
@[simp] theorem State.setST_ks (b : Byte) : (s.setST b).ks = s.ks := rfl
@[simp] theorem State.setST_cfg (b : Byte) : (s.setST b).cfg = s.cfg := rfl
@[simp] theorem State.setST_ports (b : Byte) : (s.setST b).ports = s.ports := rfl
@[simp] theorem State.setST_draws (b : Byte) : (s.setST b).draws = s.draws := rfl
@[simp] theorem State.readV_setST (b : Byte) (z : Nibble) : (s.setST b).readV z = s.readV z := rfl

/-! setDisplay -/

@[simp] theorem State.setDisplay_v (d : Vector Row 32) : (s.setDisplay d).v = s.v := rfl
@[simp] theorem State.setDisplay_i (d : Vector Row 32) : (s.setDisplay d).i = s.i := rfl
@[simp] theorem State.setDisplay_pc (d : Vector Row 32) : (s.setDisplay d).pc = s.pc := rfl
@[simp] theorem State.setDisplay_stack (d : Vector Row 32) : (s.setDisplay d).stack = s.stack := rfl
@[simp] theorem State.setDisplay_sp (d : Vector Row 32) : (s.setDisplay d).sp = s.sp := rfl
@[simp] theorem State.setDisplay_dt (d : Vector Row 32) : (s.setDisplay d).dt = s.dt := rfl
@[simp] theorem State.setDisplay_st (d : Vector Row 32) : (s.setDisplay d).st = s.st := rfl
@[simp] theorem State.setDisplay_display (d : Vector Row 32) : (s.setDisplay d).display = d := rfl
@[simp] theorem State.setDisplay_mem (d : Vector Row 32) : (s.setDisplay d).mem = s.mem := rfl
@[simp] theorem State.setDisplay_rs (d : Vector Row 32) : (s.setDisplay d).rs = s.rs := rfl
@[simp] theorem State.setDisplay_fr (d : Vector Row 32) : (s.setDisplay d).fr = s.fr := rfl
@[simp] theorem State.setDisplay_ks (d : Vector Row 32) : (s.setDisplay d).ks = s.ks := rfl
@[simp] theorem State.setDisplay_cfg (d : Vector Row 32) : (s.setDisplay d).cfg = s.cfg := rfl
@[simp] theorem State.setDisplay_ports (d : Vector Row 32) : (s.setDisplay d).ports = s.ports := rfl
@[simp] theorem State.setDisplay_draws (d : Vector Row 32) : (s.setDisplay d).draws = s.draws := rfl
@[simp] theorem State.readV_setDisplay (d : Vector Row 32) (z : Nibble) : (s.setDisplay d).readV z = s.readV z := rfl

/-! setMem -/

@[simp] theorem State.setMem_v (m : Memory) : (s.setMem m).v = s.v := rfl
@[simp] theorem State.setMem_i (m : Memory) : (s.setMem m).i = s.i := rfl
@[simp] theorem State.setMem_pc (m : Memory) : (s.setMem m).pc = s.pc := rfl
@[simp] theorem State.setMem_stack (m : Memory) : (s.setMem m).stack = s.stack := rfl
@[simp] theorem State.setMem_sp (m : Memory) : (s.setMem m).sp = s.sp := rfl
@[simp] theorem State.setMem_dt (m : Memory) : (s.setMem m).dt = s.dt := rfl
@[simp] theorem State.setMem_st (m : Memory) : (s.setMem m).st = s.st := rfl
@[simp] theorem State.setMem_display (m : Memory) : (s.setMem m).display = s.display := rfl
@[simp] theorem State.setMem_mem (m : Memory) : (s.setMem m).mem = m := rfl
@[simp] theorem State.setMem_rs (m : Memory) : (s.setMem m).rs = s.rs := rfl
@[simp] theorem State.setMem_fr (m : Memory) : (s.setMem m).fr = s.fr := rfl
@[simp] theorem State.setMem_ks (m : Memory) : (s.setMem m).ks = s.ks := rfl
@[simp] theorem State.setMem_cfg (m : Memory) : (s.setMem m).cfg = s.cfg := rfl
@[simp] theorem State.setMem_ports (m : Memory) : (s.setMem m).ports = s.ports := rfl
@[simp] theorem State.setMem_draws (m : Memory) : (s.setMem m).draws = s.draws := rfl
@[simp] theorem State.readV_setMem (m : Memory) (z : Nibble) : (s.setMem m).readV z = s.readV z := rfl

/-! setRS -/

@[simp] theorem State.setRS_v (r : RunState) : (s.setRS r).v = s.v := rfl
@[simp] theorem State.setRS_i (r : RunState) : (s.setRS r).i = s.i := rfl
@[simp] theorem State.setRS_pc (r : RunState) : (s.setRS r).pc = s.pc := rfl
@[simp] theorem State.setRS_stack (r : RunState) : (s.setRS r).stack = s.stack := rfl
@[simp] theorem State.setRS_sp (r : RunState) : (s.setRS r).sp = s.sp := rfl
@[simp] theorem State.setRS_dt (r : RunState) : (s.setRS r).dt = s.dt := rfl
@[simp] theorem State.setRS_st (r : RunState) : (s.setRS r).st = s.st := rfl
@[simp] theorem State.setRS_display (r : RunState) : (s.setRS r).display = s.display := rfl
@[simp] theorem State.setRS_mem (r : RunState) : (s.setRS r).mem = s.mem := rfl
@[simp] theorem State.setRS_rs (r : RunState) : (s.setRS r).rs = r := rfl
@[simp] theorem State.setRS_fr (r : RunState) : (s.setRS r).fr = s.fr := rfl
@[simp] theorem State.setRS_ks (r : RunState) : (s.setRS r).ks = s.ks := rfl
@[simp] theorem State.setRS_cfg (r : RunState) : (s.setRS r).cfg = s.cfg := rfl
@[simp] theorem State.setRS_ports (r : RunState) : (s.setRS r).ports = s.ports := rfl
@[simp] theorem State.setRS_draws (r : RunState) : (s.setRS r).draws = s.draws := rfl
@[simp] theorem State.readV_setRS (r : RunState) (z : Nibble) : (s.setRS r).readV z = s.readV z := rfl

/-! setKS -/

@[simp] theorem State.setKS_v (w : Word) : (s.setKS w).v = s.v := rfl
@[simp] theorem State.setKS_i (w : Word) : (s.setKS w).i = s.i := rfl
@[simp] theorem State.setKS_pc (w : Word) : (s.setKS w).pc = s.pc := rfl
@[simp] theorem State.setKS_stack (w : Word) : (s.setKS w).stack = s.stack := rfl
@[simp] theorem State.setKS_sp (w : Word) : (s.setKS w).sp = s.sp := rfl
@[simp] theorem State.setKS_dt (w : Word) : (s.setKS w).dt = s.dt := rfl
@[simp] theorem State.setKS_st (w : Word) : (s.setKS w).st = s.st := rfl
@[simp] theorem State.setKS_display (w : Word) : (s.setKS w).display = s.display := rfl
@[simp] theorem State.setKS_mem (w : Word) : (s.setKS w).mem = s.mem := rfl
@[simp] theorem State.setKS_rs (w : Word) : (s.setKS w).rs = s.rs := rfl
@[simp] theorem State.setKS_fr (w : Word) : (s.setKS w).fr = s.fr := rfl
@[simp] theorem State.setKS_ks (w : Word) : (s.setKS w).ks = w := rfl
@[simp] theorem State.setKS_cfg (w : Word) : (s.setKS w).cfg = s.cfg := rfl
@[simp] theorem State.setKS_ports (w : Word) : (s.setKS w).ports = s.ports := rfl
@[simp] theorem State.setKS_draws (w : Word) : (s.setKS w).draws = s.draws := rfl
@[simp] theorem State.readV_setKS (w : Word) (z : Nibble) : (s.setKS w).readV z = s.readV z := rfl

/-! setPorts -/

@[simp] theorem State.setPorts_v (es : List PortEvent) : (s.setPorts es).v = s.v := rfl
@[simp] theorem State.setPorts_i (es : List PortEvent) : (s.setPorts es).i = s.i := rfl
@[simp] theorem State.setPorts_pc (es : List PortEvent) : (s.setPorts es).pc = s.pc := rfl
@[simp] theorem State.setPorts_stack (es : List PortEvent) : (s.setPorts es).stack = s.stack := rfl
@[simp] theorem State.setPorts_sp (es : List PortEvent) : (s.setPorts es).sp = s.sp := rfl
@[simp] theorem State.setPorts_dt (es : List PortEvent) : (s.setPorts es).dt = s.dt := rfl
@[simp] theorem State.setPorts_st (es : List PortEvent) : (s.setPorts es).st = s.st := rfl
@[simp] theorem State.setPorts_display (es : List PortEvent) : (s.setPorts es).display = s.display := rfl
@[simp] theorem State.setPorts_mem (es : List PortEvent) : (s.setPorts es).mem = s.mem := rfl
@[simp] theorem State.setPorts_rs (es : List PortEvent) : (s.setPorts es).rs = s.rs := rfl
@[simp] theorem State.setPorts_fr (es : List PortEvent) : (s.setPorts es).fr = s.fr := rfl
@[simp] theorem State.setPorts_ks (es : List PortEvent) : (s.setPorts es).ks = s.ks := rfl
@[simp] theorem State.setPorts_cfg (es : List PortEvent) : (s.setPorts es).cfg = s.cfg := rfl
@[simp] theorem State.setPorts_ports (es : List PortEvent) : (s.setPorts es).ports = es := rfl
@[simp] theorem State.setPorts_draws (es : List PortEvent) : (s.setPorts es).draws = s.draws := rfl
@[simp] theorem State.readV_setPorts (es : List PortEvent) (z : Nibble) : (s.setPorts es).readV z = s.readV z := rfl

/-! nextDraw -/

@[simp] theorem State.nextDraw_v : (s.nextDraw).v = s.v := rfl
@[simp] theorem State.nextDraw_i : (s.nextDraw).i = s.i := rfl
@[simp] theorem State.nextDraw_pc : (s.nextDraw).pc = s.pc := rfl
@[simp] theorem State.nextDraw_stack : (s.nextDraw).stack = s.stack := rfl
@[simp] theorem State.nextDraw_sp : (s.nextDraw).sp = s.sp := rfl
@[simp] theorem State.nextDraw_dt : (s.nextDraw).dt = s.dt := rfl
@[simp] theorem State.nextDraw_st : (s.nextDraw).st = s.st := rfl
@[simp] theorem State.nextDraw_display : (s.nextDraw).display = s.display := rfl
@[simp] theorem State.nextDraw_mem : (s.nextDraw).mem = s.mem := rfl
@[simp] theorem State.nextDraw_rs : (s.nextDraw).rs = s.rs := rfl
@[simp] theorem State.nextDraw_fr : (s.nextDraw).fr = s.fr := rfl
@[simp] theorem State.nextDraw_ks : (s.nextDraw).ks = s.ks := rfl
@[simp] theorem State.nextDraw_cfg : (s.nextDraw).cfg = s.cfg := rfl
@[simp] theorem State.nextDraw_ports : (s.nextDraw).ports = s.ports := rfl
@[simp] theorem State.nextDraw_draws : (s.nextDraw).draws = s.draws + 1 := rfl
@[simp] theorem State.readV_nextDraw (z : Nibble) : (s.nextDraw).readV z = s.readV z := rfl

/-- Registers are independent: a read after a write of VX gives the value written for VX and the old value for
every other register (10_state.md R21). -/
theorem State.readV_writeV (x z : Nibble) (b : Byte) :
    (s.writeV x b).readV z = if z = x then b else s.readV z := by
  simp only [State.readV, State.writeV, Vector.getElem_set]
  by_cases h : z = x
  · simp [h]
  · have h' : x.toNat ≠ z.toNat := fun e => h (BitVec.eq_of_toNat_eq e.symm)
    simp [h, h']

@[simp] theorem State.readV_writeV_same (x : Nibble) (b : Byte) : (s.writeV x b).readV x = b := by
  simp [State.readV_writeV]

theorem State.readV_writeV_other {x z : Nibble} (b : Byte) (h : z ≠ x) :
    (s.writeV x b).readV z = s.readV z := by
  simp [State.readV_writeV, h]

end Sys2Proof.Machine
end

