-- ==== Sys2Proof/Laws/Ops.lean ====
section
/-! SUPPORT. For each shared operation, what it can do, said once. -/

namespace Sys2Proof.Machine

variable (s : State)

/-! ### Control flow, stack, timers -/

/-- A conditional skip is one write of PC. -/
theorem State.skipIf_eq (c : Prop) [Decidable c] :
    s.skipIf c = s.setPC (if c then s.pc + 2 else s.pc) := by
  unfold State.skipIf State.skip wordBytes
  split <;> rfl

/-- A push fills the slot SP and raises SP by one. -/
theorem State.push_eq (w : Word) (h : s.sp.val < 16) :
    s.push w h = (s.setSlot ⟨s.sp.val, h⟩ w).setSP ⟨s.sp.val + 1, by omega⟩ := rfl

/-- A pop lowers SP by one and reads the slot it then names. -/
theorem State.popPC_eq (h : 0 < s.sp.val) :
    s.popPC h = (s.setSP ⟨s.sp.val - 1, by omega⟩).setPC (s.stack[s.sp.val - 1]'(by omega)) := rfl

/-- A timer goes down by one and stops at 0. -/
theorem decTimer_toNat (t : Byte) : (decTimer t).toNat = t.toNat - 1 := by
  unfold decTimer
  split
  · have : t.toNat ≠ 0 := fun h => ‹t ≠ 0› (BitVec.eq_of_toNat_eq (by simpa using h))
    bv_omega
  · simp_all

/-- A timer step is two writes, of DT and of ST. -/
theorem State.timerStep_eq : s.timerStep = (s.setDT (decTimer s.dt)).setST (decTimer s.st) := rfl

/-! ### Faults -/

section
variable (k : FaultKind) (info : Nat) (w : Word)

@[simp] theorem State.raiseFault_rs : (s.raiseFault k info w).rs = .faulted := rfl

@[simp] theorem State.raiseFault_fr :
    (s.raiseFault k info w).fr = some { kind := k, info := info, word := w, pc := s.pc - 2 } := rfl

@[simp] theorem State.raiseFault_cfg : (s.raiseFault k info w).cfg = s.cfg := rfl

@[simp] theorem State.raiseFault_ports : (s.raiseFault k info w).ports = s.ports := rfl

@[simp] theorem State.raiseFault_draws : (s.raiseFault k info w).draws = s.draws + 1 := rfl

theorem State.raiseFault_mem_canon : (s.raiseFault k info w).mem.Canon := Memory.Canon.ofCells _

end

/-! ### The memory operand -/

theorem State.outOfBounds_eq_none (n : Nat) :
    s.outOfBounds n = none ↔ n = 0 ∨ s.i.toNat + n ≤ memSize := by
  simp only [State.outOfBounds, List.find?_eq_none, List.mem_map, List.mem_range, State.operandAddr,
    decide_eq_true_eq, forall_exists_index, and_imp, forall_apply_eq_imp_iff₂]
  constructor
  · intro h
    rcases n with _ | n
    · exact .inl rfl
    · have := h n (by omega)
      omega
  · rintro h k hk
    omega

/-- Every address is in bounds: the instruction has its effect. -/
theorem State.withBytesAtI_inBounds {s : State} {n : Nat} (h : n = 0 ∨ s.i.toNat + n ≤ memSize) (i : Instr)
    (t : State) : s.withBytesAtI n i t = t := by
  simp [State.withBytesAtI, (s.outOfBounds_eq_none n).2 h]

/-- An address is out of bounds: BOUNDS with the lowest one, which is I or 4096, whichever is greater. -/
theorem State.withBytesAtI_out {s : State} {n : Nat} (h0 : 0 < n) (h : memSize < s.i.toNat + n) (i : Instr)
    (t : State) : s.withBytesAtI n i t = s.raiseFault .bounds (max s.i.toNat memSize) (encode i) := by
  have key : s.outOfBounds n = some (max s.i.toNat memSize) := by
    rw [State.outOfBounds, List.find?_map, Option.map_eq_some_iff]
    refine ⟨max s.i.toNat memSize - s.i.toNat, ?_, by simp only [State.operandAddr]; omega⟩
    refine List.find?_range_eq_some.2 ⟨?_, List.mem_range.2 (by omega), fun j hj => ?_⟩
    · exact decide_eq_true (by simp only [State.operandAddr]; omega)
    · have : decide (memSize ≤ s.operandAddr j) = false :=
        decide_eq_false (by simp only [State.operandAddr]; omega)
      simp [this]
  simp [State.withBytesAtI, key]

/-- An access to bytes at I has its effect or raises a fault, nothing else. -/
theorem State.withBytesAtI_cases (n : Nat) (i : Instr) (t : State) :
    s.withBytesAtI n i t = t ∨ ∃ k info w, s.withBytesAtI n i t = s.raiseFault k info w := by
  unfold State.withBytesAtI
  split
  · exact .inr ⟨_, _, _, rfl⟩
  · exact .inl rfl

/-- The registers of a block store, by position. -/
@[simp] theorem State.firstRegs_length (n : Nat) : (s.firstRegs n).length = n := by simp [State.firstRegs]

theorem State.firstRegs_getElem (n k : Nat) (h : k < n) :
    (s.firstRegs n)[k]'(by simpa using h) = s.readV (BitVec.ofNat 4 k) := by
  simp [State.firstRegs]

/-- A block load reads register z from I + z for z < n and leaves the others; it changes nothing but registers. -/
theorem State.loadFirstRegs_spec (n : Nat) (hn : n ≤ 16) :
    (∀ z : Nibble, (s.loadFirstRegs n).readV z =
      if z.toNat < n then s.mem.read (s.i.toNat + z.toNat) else s.readV z) ∧
    ∃ v, s.loadFirstRegs n = { s with v := v } := by
  induction n with
  | zero => exact ⟨by simp [State.loadFirstRegs], s.v, rfl⟩
  | succ n ih =>
    obtain ⟨ih1, v, ih2⟩ := ih (by omega)
    have step : s.loadFirstRegs (n + 1) =
        (s.loadFirstRegs n).writeV (BitVec.ofNat 4 n) (s.mem.read (s.operandAddr n)) := by
      simp [State.loadFirstRegs, List.range_succ]
    constructor
    · intro z
      have hz : z = BitVec.ofNat 4 n ↔ z.toNat = n := by
        rw [← BitVec.toNat_inj, BitVec.toNat_ofNat, Nat.mod_eq_of_lt (by omega)]
      rw [step, State.readV_writeV, ih1 z]
      by_cases h : z.toNat = n
      · simp [hz.2 h, State.operandAddr, BitVec.toNat_ofNat, Nat.mod_eq_of_lt (show n < 16 by omega)]
      · rw [if_neg (fun e => h (hz.1 e))]
        by_cases h' : z.toNat < n
        · rw [if_pos h', if_pos (by omega)]
        · rw [if_neg h', if_neg (by omega)]
    · rw [step, ih2]
      exact ⟨_, rfl⟩

/-! ### The key operand -/

/-- A key index up to 15 gives the effect of that key. -/
theorem State.withKey_valid {s : State} {x : Nibble} (h : (s.readV x).toNat ≤ 15) (i : Instr)
    (e : Bool → State) : s.withKey x i e = e (s.ks.getLsbD (s.readV x).toNat) := by
  simp [State.withKey, h, State.keyHeld]

/-- A key index above 15 reads as released with KEY_INDEX_POLICY = not_held. -/
theorem State.withKey_notHeld {s : State} {x : Nibble} (h : 15 < (s.readV x).toNat)
    (hp : s.cfg.keyIndex = .notHeld) (i : Instr) (e : Bool → State) : s.withKey x i e = e false := by
  simp [State.withKey, show ¬(s.readV x).toNat ≤ 15 by omega, hp]

/-- A key index above 15 faults with KEY_INDEX_POLICY = fault. -/
theorem State.withKey_fault {s : State} {x : Nibble} (h : 15 < (s.readV x).toNat)
    (hp : s.cfg.keyIndex = .fault) (i : Instr) (e : Bool → State) :
    s.withKey x i e = s.raiseFault .keyIndex (s.readV x).toNat (encode i) := by
  simp [State.withKey, show ¬(s.readV x).toNat ≤ 15 by omega, hp]

/-- A key operand gives the effect of some key state or raises a fault, nothing else. -/
theorem State.withKey_cases (x : Nibble) (i : Instr) (e : Bool → State) :
    (∃ b, s.withKey x i e = e b) ∨ ∃ k info w, s.withKey x i e = s.raiseFault k info w := by
  by_cases h : (s.readV x).toNat ≤ 15
  · exact .inl ⟨_, State.withKey_valid h i e⟩
  · cases hp : s.cfg.keyIndex
    · exact .inr ⟨_, _, _, State.withKey_fault (by omega) hp i e⟩
    · exact .inl ⟨_, State.withKey_notHeld (by omega) hp i e⟩

theorem State.firstHeld_eq_some (k : Nat) :
    s.firstHeld = some k ↔ k < 16 ∧ s.ks.getLsbD k = true ∧ ∀ j < k, s.ks.getLsbD j = false := by
  simp only [State.firstHeld, List.find?_range_eq_some, List.mem_range, State.keyHeld, Bool.not_eq_true']
  constructor
  · rintro ⟨h1, h2, h3⟩
    exact ⟨h2, h1, h3⟩
  · rintro ⟨h1, h2, h3⟩
    exact ⟨h2, h1, h3⟩

theorem State.firstHeld_eq_none : s.firstHeld = none ↔ s.ks = 0 := by
  simp only [State.firstHeld, List.find?_eq_none, List.mem_range, State.keyHeld, Bool.not_eq_true]
  constructor
  · intro h
    apply BitVec.eq_of_getLsbD_eq
    intro k hk
    simpa using h k hk
  · intro h k _
    simp [h]

/-! ### Flags -/

section
variable (x z : Nibble) (r f : Byte)

/-- Where X is not F both writes stand; where X is F the later one of FLAG_ORDER does. -/
theorem State.readV_writeResultFlag :
    (s.writeResultFlag x r f).readV z =
      if z = regF then (if x = regF ∧ s.cfg.flagOrder = .resultLast then r else f)
      else if z = x then r else s.readV z := by
  simp only [State.writeResultFlag]
  split <;> rename_i ho <;> simp only [State.readV_writeV, ho]
  · by_cases h1 : z = regF <;> simp [h1]
  · by_cases h1 : z = regF
    · subst h1
      by_cases h2 : regF = x
      · simp [← h2]
      · simp [h2, show x ≠ regF from fun e => h2 e.symm]
    · simp [h1]

/-- The two writes change nothing but registers. -/
theorem State.writeResultFlag_frame : ∃ v, s.writeResultFlag x r f = { s with v := v } := by
  simp only [State.writeResultFlag]
  split <;> exact ⟨_, rfl⟩

end

/-! ### Drawing -/

/-- The bit of a sprite row's mask at column cx: bit 7 - (cx - x0) of the byte when cx lies in the eight columns
from x0 on. -/
theorem spriteMask_bit (b : Byte) (x0 cx : Nat) (hx : cx < 64) :
    (spriteMask b x0).getLsbD (63 - cx) = (decide (x0 ≤ cx ∧ cx < x0 + 8) && b.getLsbD (7 - (cx - x0))) := by
  simp only [spriteMask, BitVec.getLsbD_ushiftRight, BitVec.getLsbD_shiftLeft, BitVec.getLsbD_setWidth]
  by_cases h1 : x0 ≤ cx
  · by_cases h2 : cx < x0 + 8
    · have e : x0 + (63 - cx) - 56 = 7 - (cx - x0) := by omega
      rw [e]
      simp [h1, h2, show x0 + (63 - cx) < 64 by omega, show ¬ x0 + (63 - cx) < 56 by omega]
      omega
    · simp [h2, show x0 + (63 - cx) < 56 by omega]
  · simp [h1, show ¬ x0 + (63 - cx) < 64 by omega]

/-- The rows a draw changes, each by one XOR, and the collision over them. -/
theorem drawRows_spec (m : Memory) (x0 n y a : Nat) (d : Vector Row 32) (c : Bool) :
    (∀ (j : Nat) (hj : j < 32), (drawRows m x0 n y a d c).1[j] =
      if y ≤ j ∧ j < y + n then d[j] ^^^ spriteMask (m.read (a + (j - y))) x0 else d[j]) ∧
    ((drawRows m x0 n y a d c).2 = true ↔ c = true ∨ ∃ (j : Nat) (hj : j < 32), y ≤ j ∧ j < y + n ∧
      d[j] &&& spriteMask (m.read (a + (j - y))) x0 ≠ 0) := by
  induction n generalizing y a d c with
  | zero =>
    refine ⟨fun j hj => ?_, ?_⟩
    · rw [if_neg (by omega)]; rfl
    · simp only [drawRows]
      constructor
      · exact .inl
      · rintro (h | ⟨j, hj, h1, h2, -⟩)
        · exact h
        · omega
  | succ n ih =>
    simp only [drawRows]
    split
    · rename_i hy
      obtain ⟨ih1, ih2⟩ := ih (y + 1) (a + 1) (d.set y (d[y] ^^^ spriteMask (m.read a) x0))
        (c || d[y] &&& spriteMask (m.read a) x0 != 0)
      have off : ∀ j, y + 1 ≤ j → a + 1 + (j - (y + 1)) = a + (j - y) := by omega
      refine ⟨fun j hj => ?_, ?_⟩
      · rw [ih1 j hj, Vector.getElem_set]
        by_cases e : y = j
        · subst e
          rw [if_neg (by omega), if_pos rfl, if_pos (by omega)]
          simp
        · rw [if_neg e]
          by_cases h : y + 1 ≤ j ∧ j < y + 1 + n
          · rw [if_pos h, if_pos (by omega), off j h.1]
          · rw [if_neg h, if_neg (by omega)]
      · rw [ih2]
        simp only [Bool.or_eq_true, bne_iff_ne, Vector.getElem_set]
        constructor
        · rintro ((h | h) | ⟨j, hj, h1, h2, h3⟩)
          · exact .inl h
          · exact .inr ⟨y, hy, le_rfl, by omega, by simpa using h⟩
          · rw [if_neg (by omega), off j h1] at h3
            exact .inr ⟨j, hj, by omega, by omega, h3⟩
        · rintro (h | ⟨j, hj, h1, h2, h3⟩)
          · exact .inl (.inl h)
          · by_cases e : y = j
            · subst e
              exact .inl (.inr (by simpa using h3))
            · refine .inr ⟨j, hj, by omega, by omega, ?_⟩
              rw [if_neg e, off j (by omega)]
              exact h3
    · refine ⟨fun j hj => ?_, ?_⟩
      · rw [if_neg (by omega)]
      · constructor
        · exact .inl
        · rintro (h | ⟨j, hj, h1, h2, -⟩)
          · exact h
          · omega

/-- A draw changes the display and registers only. -/
theorem State.drawSprite_frame (x y n : Nibble) :
    ∃ v d, s.drawSprite x y n = { s with v := v, display := d } := ⟨_, _, rfl⟩

/-- No meaning stops: every instruction answers a next state (a fault is taken as one). -/
theorem exec_next (i : Instr) : ∃ t, exec i s = .next t := by
  cases i <;> exact ⟨_, rfl⟩

end Sys2Proof.Machine
end

