-- ==== Sys2Proof/Laws/PerInstr.lean ====
section
/-! SUPPORT. The per-instruction family EncodingRow: the word of every well-formed instruction matches the row of
30_encoding.md R74 (with R75's masks when DECODE_STRICT = false) that the instruction stands for. -/

namespace Sys2Proof.Laws.EncodingRow

/-- The word of the instruction matches its row of the opcode map. -/
def Statement (i : Instr) : Prop :=
  ∀ strict : Bool, i.wellFormed strict = true → encode i &&& rowMask strict i = rowMatch i

theorem cls (x : Nibble) : Statement (.cls x) := by
  intro strict h
  cases strict
  · simp only [encode, rowMask, rowMatch, Bool.false_eq_true, ↓reduceIte, word_and_F0FF, fieldInd_xnn, fieldNN_xnn]
    decide
  · have : x = 0 := by simpa [Instr.wellFormed] using h
    subst this
    decide

theorem ret (x : Nibble) : Statement (.ret x) := by
  intro strict h
  cases strict
  · simp only [encode, rowMask, rowMatch, Bool.false_eq_true, ↓reduceIte, word_and_F0FF, fieldInd_xnn, fieldNN_xnn]
    decide
  · have : x = 0 := by simpa [Instr.wellFormed] using h
    subst this
    decide

theorem jp (nnn : Addr) : Statement (.jp nnn) := by
  intro _ _
  simp only [encode, rowMask, rowMatch, word_and_F000, fieldInd_nnn]
  decide

theorem call (nnn : Addr) : Statement (.call nnn) := by
  intro _ _
  simp only [encode, rowMask, rowMatch, word_and_F000, fieldInd_nnn]
  decide

theorem seByte (x : Nibble) (nn : Byte) : Statement (.seByte x nn) := by
  intro _ _
  simp only [encode, rowMask, rowMatch, word_and_F000, fieldInd_xnn]
  decide

theorem sneByte (x : Nibble) (nn : Byte) : Statement (.sneByte x nn) := by
  intro _ _
  simp only [encode, rowMask, rowMatch, word_and_F000, fieldInd_xnn]
  decide

theorem seReg (x y n : Nibble) : Statement (.seReg x y n) := by
  intro strict h
  cases strict
  · simp only [encode, rowMask, rowMatch, Bool.false_eq_true, ↓reduceIte, word_and_F000, fieldInd_xyn]
    decide
  · have : n = 0 := by simpa [Instr.wellFormed] using h
    subst this
    simp only [encode, rowMask, rowMatch, ↓reduceIte, word_and_F00F, fieldInd_xyn, fieldN_xyn]
    decide

theorem ldByte (x : Nibble) (nn : Byte) : Statement (.ldByte x nn) := by
  intro _ _
  simp only [encode, rowMask, rowMatch, word_and_F000, fieldInd_xnn]
  decide

theorem addByte (x : Nibble) (nn : Byte) : Statement (.addByte x nn) := by
  intro _ _
  simp only [encode, rowMask, rowMatch, word_and_F000, fieldInd_xnn]
  decide

theorem ldReg (x y : Nibble) : Statement (.ldReg x y) := by
  intro _ _
  simp only [encode, rowMask, rowMatch, word_and_F00F, fieldInd_xyn, fieldN_xyn]
  decide

theorem orReg (x y : Nibble) : Statement (.orReg x y) := by
  intro _ _
  simp only [encode, rowMask, rowMatch, word_and_F00F, fieldInd_xyn, fieldN_xyn]
  decide

theorem andReg (x y : Nibble) : Statement (.andReg x y) := by
  intro _ _
  simp only [encode, rowMask, rowMatch, word_and_F00F, fieldInd_xyn, fieldN_xyn]
  decide

theorem xorReg (x y : Nibble) : Statement (.xorReg x y) := by
  intro _ _
  simp only [encode, rowMask, rowMatch, word_and_F00F, fieldInd_xyn, fieldN_xyn]
  decide

theorem addReg (x y : Nibble) : Statement (.addReg x y) := by
  intro _ _
  simp only [encode, rowMask, rowMatch, word_and_F00F, fieldInd_xyn, fieldN_xyn]
  decide

theorem subReg (x y : Nibble) : Statement (.subReg x y) := by
  intro _ _
  simp only [encode, rowMask, rowMatch, word_and_F00F, fieldInd_xyn, fieldN_xyn]
  decide

theorem shr (x y : Nibble) : Statement (.shr x y) := by
  intro _ _
  simp only [encode, rowMask, rowMatch, word_and_F00F, fieldInd_xyn, fieldN_xyn]
  decide

theorem subnReg (x y : Nibble) : Statement (.subnReg x y) := by
  intro _ _
  simp only [encode, rowMask, rowMatch, word_and_F00F, fieldInd_xyn, fieldN_xyn]
  decide

theorem shl (x y : Nibble) : Statement (.shl x y) := by
  intro _ _
  simp only [encode, rowMask, rowMatch, word_and_F00F, fieldInd_xyn, fieldN_xyn]
  decide

theorem sneReg (x y n : Nibble) : Statement (.sneReg x y n) := by
  intro strict h
  cases strict
  · simp only [encode, rowMask, rowMatch, Bool.false_eq_true, ↓reduceIte, word_and_F000, fieldInd_xyn]
    decide
  · have : n = 0 := by simpa [Instr.wellFormed] using h
    subst this
    simp only [encode, rowMask, rowMatch, ↓reduceIte, word_and_F00F, fieldInd_xyn, fieldN_xyn]
    decide

theorem ldI (nnn : Addr) : Statement (.ldI nnn) := by
  intro _ _
  simp only [encode, rowMask, rowMatch, word_and_F000, fieldInd_nnn]
  decide

theorem jpV0 (nnn : Addr) : Statement (.jpV0 nnn) := by
  intro _ _
  simp only [encode, rowMask, rowMatch, word_and_F000, fieldInd_nnn]
  decide

theorem drw (x y n : Nibble) : Statement (.drw x y n) := by
  intro _ _
  simp only [encode, rowMask, rowMatch, word_and_F000, fieldInd_xyn]
  decide

theorem skp (x : Nibble) : Statement (.skp x) := by
  intro _ _
  simp only [encode, rowMask, rowMatch, word_and_F0FF, fieldInd_xnn, fieldNN_xnn]
  decide

theorem sknp (x : Nibble) : Statement (.sknp x) := by
  intro _ _
  simp only [encode, rowMask, rowMatch, word_and_F0FF, fieldInd_xnn, fieldNN_xnn]
  decide

theorem ldVxDT (x : Nibble) : Statement (.ldVxDT x) := by
  intro _ _
  simp only [encode, rowMask, rowMatch, word_and_F0FF, fieldInd_xnn, fieldNN_xnn]
  decide

theorem ldVxK (x : Nibble) : Statement (.ldVxK x) := by
  intro _ _
  simp only [encode, rowMask, rowMatch, word_and_F0FF, fieldInd_xnn, fieldNN_xnn]
  decide

theorem ldDTVx (x : Nibble) : Statement (.ldDTVx x) := by
  intro _ _
  simp only [encode, rowMask, rowMatch, word_and_F0FF, fieldInd_xnn, fieldNN_xnn]
  decide

theorem ldSTVx (x : Nibble) : Statement (.ldSTVx x) := by
  intro _ _
  simp only [encode, rowMask, rowMatch, word_and_F0FF, fieldInd_xnn, fieldNN_xnn]
  decide

theorem addI (x : Nibble) : Statement (.addI x) := by
  intro _ _
  simp only [encode, rowMask, rowMatch, word_and_F0FF, fieldInd_xnn, fieldNN_xnn]
  decide

theorem ldB (x : Nibble) : Statement (.ldB x) := by
  intro _ _
  simp only [encode, rowMask, rowMatch, word_and_F0FF, fieldInd_xnn, fieldNN_xnn]
  decide

theorem storeRegs (x : Nibble) : Statement (.storeRegs x) := by
  intro _ _
  simp only [encode, rowMask, rowMatch, word_and_F0FF, fieldInd_xnn, fieldNN_xnn]
  decide

theorem loadRegs (x : Nibble) : Statement (.loadRegs x) := by
  intro _ _
  simp only [encode, rowMask, rowMatch, word_and_F0FF, fieldInd_xnn, fieldNN_xnn]
  decide

end Sys2Proof.Laws.EncodingRow
end

