-- ==== Sys2Proof/Laws/Step.lean ====
section
/-! SUPPORT. What a cycle and a step can do, said once. -/

namespace Sys2Proof.Machine

variable {s t : State}

/-! ### Executing a word -/

/-- The answer `d` for the word `w` is an instruction, or `w` handed back as unmatched. -/
def Answers (w : Word) (d : Decoded) : Prop := (∃ i, d = .instr i) ∨ d = .unmatched w

theorem Answers.instr (w : Word) (i : Instr) : Answers w (.instr i) := .inl ⟨i, rfl⟩

theorem Answers.unmatched (w : Word) : Answers w (.unmatched w) := .inr rfl

theorem Answers.ite {w : Word} {c : Prop} [Decidable c] {d e : Decoded} (hd : Answers w d) (he : Answers w e) :
    Answers w (if c then d else e) := by
  split <;> assumption

/-- The decoder answers an instruction or hands the word back as unmatched. -/
theorem decodeWord_cases (strict : Bool) (w : Word) : Answers w (decodeWord strict w) := by
  unfold decodeWord decode0 decode5 decode8 decode9 decodeE decodeF
  dsimp only
  repeat' first
    | exact Answers.instr _ _
    | exact Answers.unmatched _
    | apply Answers.ite

theorem executeWord_instr {w : Word} {i : Instr} (h : decodeWord s.cfg.decodeStrict w = .instr i) :
    executeWord w s = exec i s := by
  simp [executeWord, h]

theorem executeWord_unmatched {w : Word} (h : decodeWord s.cfg.decodeStrict w = .unmatched w) :
    executeWord w s = .next (match s.cfg.unmatched with
      | .noop => s
      | .fault => s.raiseFault .unmatched w.toNat w) := by
  simp only [executeWord, h]
  rfl

/-- Executing a word is executing an instruction, doing nothing, or the fault UNMATCHED. -/
theorem executeWord_cases (w : Word) (s : State) :
    (∃ i, decodeWord s.cfg.decodeStrict w = .instr i ∧ executeWord w s = exec i s) ∨
    executeWord w s = .next s ∨ executeWord w s = .next (s.raiseFault .unmatched w.toNat w) := by
  rcases decodeWord_cases s.cfg.decodeStrict w with ⟨i, h⟩ | h
  · exact .inl ⟨i, h, executeWord_instr h⟩
  · refine .inr ?_
    rw [executeWord_unmatched h]
    cases s.cfg.unmatched
    · exact .inl rfl
    · exact .inr rfl

/-! ### The end of a cycle -/

theorem State.endCycle_faulted (h : t.rs = .faulted) : t.endCycle = t := by
  simp [State.endCycle, h]

theorem State.endCycle_good (h : t.rs ≠ .faulted) : t.endCycle = t.coupledTimerStep.releaseSample := by
  simp [State.endCycle, h]

/-- The timer step of a cycle is a write of DT and of ST. -/
theorem State.coupledTimerStep_eq (t : State) :
    t.coupledTimerStep = match t.cfg.timerMode with
      | .coupled => (t.setDT (decTimer t.dt)).setST (decTimer t.st)
      | .independent => t := rfl

theorem State.releaseSample_eq (t : State) : t.releaseSample = (t.setKS (Config.ksOutside t.draws)).nextDraw := rfl

/-- The end of a cycle changes timers, KS and the draw counter only. -/
theorem State.endCycle_frame (t : State) :
    ∃ a b k n, t.endCycle = { t with dt := a, st := b, ks := k, draws := n } := by
  unfold State.endCycle State.coupledTimerStep
  split
  · exact ⟨t.dt, t.st, t.ks, t.draws, rfl⟩
  · split <;> exact ⟨_, _, _, _, rfl⟩

/-! ### Cycle and step -/

theorem cycle_halts {k : Word} (h : 0xFFE < s.pc.toNat) : cycle k s = .next (s.setRS .halted) := by
  simp [cycle, lastFetch, h]

theorem cycle_runs {k : Word} (h : s.pc.toNat ≤ 0xFFE) :
    cycle k s = endOfCycle (executeWord s.wordAtPC (s.fetched k)) := by
  simp [cycle, lastFetch, show ¬0xFFE < s.pc.toNat by omega, State.fetchWord, State.wordAtPC]

theorem State.fetched_eq (k : Word) : s.fetched k = (s.setPC (s.pc + 2)).setKS k := rfl

theorem step_keys {k : Word} {rest : List PortEvent} (hr : s.rs = .running) (hp : s.ports = .keys k :: rest) :
    step s = cycle k (s.setPorts rest) := by
  simp [step, stepOnce, hp, portStep, hr]

/-- Everything a cycle that answers a next state can have done. -/
theorem cycle_next_cases {k : Word} (h : cycle k s = .next t) :
    (0xFFE < s.pc.toNat ∧ t = s.setRS .halted) ∨
    (s.pc.toNat ≤ 0xFFE ∧ ∃ u, executeWord s.wordAtPC (s.fetched k) = .next u ∧ t = u.endCycle) := by
  by_cases hp : s.pc.toNat ≤ 0xFFE
  · rw [cycle_runs hp] at h
    cases he : executeWord s.wordAtPC (s.fetched k) with
    | next u =>
      rw [he] at h
      cases h
      exact .inr ⟨hp, u, rfl, rfl⟩
    | fault r => rw [he] at h; cases h
    | refused r => rw [he] at h; cases h
  · rw [cycle_halts (by omega)] at h
    cases h
    exact .inl ⟨by omega, rfl⟩

/-- `s` with another schedule and draw counter. -/
def State.withEnv (s : State) (es : List PortEvent) (n : Nat) : State := { s with ports := es, draws := n }

/-- What a step that answers the next state `t` has done. -/
inductive StepCase (s t : State) : Prop where
  /-- a reset -/
  | reset (l : Launch) (rest : List PortEvent) (hp : s.ports = .reset l :: rest)
      (ht : t = (s.setPorts rest).afterReset l)
  /-- a load into a loaded machine -/
  | load (bytes : List Byte) (rest : List PortEvent) (hp : s.ports = .load bytes :: rest) (hr : s.rs = .loaded)
      (ht : t = (s.setPorts rest).setMem (s.mem.loadAt loadBase bytes))
  /-- the start of a loaded machine -/
  | start (rest : List PortEvent) (hp : s.ports = .start :: rest) (hr : s.rs = .loaded)
      (ht : t = (s.setPorts rest).setRS .running)
  /-- a tick in a running machine with a timer clock of its own -/
  | tick (es : List PortEvent) (n : Nat) (hr : s.rs = .running) (hm : s.cfg.timerMode = .independent)
      (ht : t = (s.withEnv es n).timerStep)
  /-- an event without effect -/
  | noEffect (e : PortEvent) (rest : List PortEvent) (hp : s.ports = e :: rest) (he : ∀ l, e ≠ .reset l)
      (ht : t = s.setPorts rest)
  /-- a loaded machine waits -/
  | idle (hp : s.ports = []) (hr : s.rs = .loaded) (ht : t = s)
  /-- a cycle of a running machine -/
  | cycle (k : Word) (es : List PortEvent) (n : Nat) (hr : s.rs = .running)
      (hc : cycle k (s.withEnv es n) = .next t)

/-- Everything a step that answers a next state can have done. -/
theorem step_next_cases (h : step s = .next t) : StepCase s t := by
  unfold step stepOnce at h
  rcases hp : s.ports with _ | ⟨e, rest⟩
  · rw [hp] at h
    rcases hr : s.rs <;> simp only [hr] at h
    · cases h
      exact .idle hp hr rfl
    · unfold freeStep at h
      rcases hm : s.cfg.timerMode <;> simp only [hm] at h
      · exact .cycle _ s.ports _ hr h
      · rcases hf : Config.tickFalls s.draws <;>
          simp only [hf, Bool.false_eq_true, ↓reduceIte] at h
        · exact .cycle _ s.ports _ hr h
        · cases h
          exact .tick s.ports (s.draws + 1) hr hm rfl
    · cases h
    · cases h
  · rw [hp] at h
    cases e with
    | reset l =>
      cases h
      exact .reset l rest hp rfl
    | load bytes =>
      by_cases hr : s.rs = .loaded <;> simp [portStep, hr] at h
      exact .load bytes rest hp hr h.symm
    | start =>
      by_cases hr : s.rs = .loaded <;> simp [portStep, hr] at h
      · exact .start rest hp hr h.symm
      · exact .noEffect .start rest hp nofun h.symm
    | tick =>
      rcases hm : s.cfg.timerMode <;> simp [portStep, hm] at h
      by_cases hr : s.rs = .running <;> simp [hr] at h
      · exact .tick rest s.draws hr hm h.symm
      · exact .noEffect .tick rest hp nofun h.symm
    | keys k =>
      by_cases hr : s.rs = .running <;> simp [portStep, hr] at h
      · exact .cycle k rest s.draws hr h
      · exact .noEffect (.keys k) rest hp nofun h.symm

end Sys2Proof.Machine
end

