-- ==== Sys2Proof/Tests/Slice0.lean ====
section
/-! SUPPORT. Tests. Words are written out from the patterns of 30_encoding.md R74; expected results are the worked
examples (S), the derived vectors (T) of 95_test_vectors.md, named in each docstring. The last part gives, for each
obligation with hypotheses, concrete data that meet them. -/

namespace Sys2Proof.Tests

open Sys2Proof.Machine

/-! ### Small states -/

/-- A running machine, everything else as reset leaves it. -/
def base : State := State.reset.setRS .running

/-- `s` about to fetch the word w at the address a. -/
def ready (s : State) (a w : Nat) : State := (s.setPC (BitVec.ofNat 16 a)).withFetchWord 16 w

/-- The outcome is a next state of which p holds. -/
def nextHas (p : State → Bool) : Result → Bool
  | .next t => p t
  | .fault _ => false
  | .refused _ => false

theorem exists_next {r : Result} {p : State → Bool} (h : nextHas p r = true) : ∃ t, r = .next t ∧ p t = true := by
  cases r with
  | next t => exact ⟨t, rfl, h⟩
  | fault _ => cases h
  | refused _ => cases h

/-- One step of `s` with the word w at the address a ends in a state of which p holds. -/
def after (s : State) (a w : Nat) (p : State → Bool) : Bool := nextHas p (step (ready s a w))

/-- The state is faulted with this record. -/
def faultedWith (k : FaultKind) (info : Nat) (w pc : Word) (t : State) : Bool :=
  t.rs == .faulted && t.fr == some { kind := k, info := info, word := w, pc := pc }

/-- `s` with the bytes at an address. -/
def withBytes (s : State) (a : Nat) (bs : List Byte) : State := s.setMem (s.mem.writeBytes a bs)

/-- `s` with another value of some parameters. -/
def withCfg (s : State) (c : Params) : State := { s with cfg := c }

/-- A display with one row. -/
def oneRow (k : Nat) (h : k < 32) (r : Row) : Vector Row 32 := (Vector.replicate 32 0).set k r

/-! ### Well-formedness -/

/-- A literal nibble that is not 0 is refused under DECODE_STRICT (R75), one theorem per check. -/
theorem test_wf_cls : (Instr.cls 1).wellFormed true = false ∧ (Instr.cls 0).wellFormed true = true ∧
    (Instr.cls 1).wellFormed false = true := by decide

theorem test_wf_ret : (Instr.ret 1).wellFormed true = false ∧ (Instr.ret 0).wellFormed true = true ∧
    (Instr.ret 1).wellFormed false = true := by decide

theorem test_wf_seReg : (Instr.seReg 1 2 1).wellFormed true = false ∧ (Instr.seReg 1 2 0).wellFormed true = true ∧
    (Instr.seReg 1 2 1).wellFormed false = true := by decide

theorem test_wf_sneReg : (Instr.sneReg 1 2 1).wellFormed true = false ∧
    (Instr.sneReg 1 2 0).wellFormed true = true ∧ (Instr.sneReg 1 2 1).wellFormed false = true := by decide

/-! ### Decoding and encoding, one word for every constructor, bit by bit -/

/-- w decodes to i under the default DECODE_STRICT, and i encodes to w. -/
def isWordOf (w : Word) (i : Instr) : Bool := decodeWord true w == .instr i && encode i == w

/-- 00E0, 00EE. -/
theorem test_decode_family0 :
    isWordOf 0b0000_0000_1110_0000 (.cls 0) && isWordOf 0b0000_0000_1110_1110 (.ret 0) = true := by decide

/-- 1NNN, 2NNN, BNNN, ANNN with NNN = 0x9A5. -/
theorem test_decode_addresses :
    isWordOf 0b0001_1001_1010_0101 (.jp 0x9A5) && isWordOf 0b0010_1001_1010_0101 (.call 0x9A5) &&
    isWordOf 0b1010_1001_1010_0101 (.ldI 0x9A5) && isWordOf 0b1011_1001_1010_0101 (.jpV0 0x9A5) = true := by decide

/-- 3XNN, 4XNN, 6XNN, 7XNN with X = 9, NN = 0xC5. -/
theorem test_decode_immediates :
    isWordOf 0b0011_1001_1100_0101 (.seByte 9 0xC5) && isWordOf 0b0100_1001_1100_0101 (.sneByte 9 0xC5) &&
    isWordOf 0b0110_1001_1100_0101 (.ldByte 9 0xC5) && isWordOf 0b0111_1001_1100_0101 (.addByte 9 0xC5) = true := by
  decide

/-- 5XY0, 9XY0 with X = 9, Y = 0xC. -/
theorem test_decode_register_skips :
    isWordOf 0b0101_1001_1100_0000 (.seReg 9 0xC 0) && isWordOf 0b1001_1001_1100_0000 (.sneReg 9 0xC 0) = true := by
  decide

/-- 8XY0 to 8XY7 and 8XYE with X = 9, Y = 0xC. -/
theorem test_decode_family8 :
    isWordOf 0b1000_1001_1100_0000 (.ldReg 9 0xC) && isWordOf 0b1000_1001_1100_0001 (.orReg 9 0xC) &&
    isWordOf 0b1000_1001_1100_0010 (.andReg 9 0xC) && isWordOf 0b1000_1001_1100_0011 (.xorReg 9 0xC) &&
    isWordOf 0b1000_1001_1100_0100 (.addReg 9 0xC) && isWordOf 0b1000_1001_1100_0101 (.subReg 9 0xC) &&
    isWordOf 0b1000_1001_1100_0110 (.shr 9 0xC) && isWordOf 0b1000_1001_1100_0111 (.subnReg 9 0xC) &&
    isWordOf 0b1000_1001_1100_1110 (.shl 9 0xC) = true := by decide

/-- DXYN with X = 9, Y = 0xC, N = 5. -/
theorem test_decode_draw : isWordOf 0b1101_1001_1100_0101 (.drw 9 0xC 5) = true := by decide

/-- EX9E, EXA1 with X = 9. -/
theorem test_decode_familyE :
    isWordOf 0b1110_1001_1001_1110 (.skp 9) && isWordOf 0b1110_1001_1010_0001 (.sknp 9) = true := by decide

/-- FX07, FX0A, FX15, FX18, FX1E, FX33, FX55, FX65 with X = 9. -/
theorem test_decode_familyF :
    isWordOf 0b1111_1001_0000_0111 (.ldVxDT 9) && isWordOf 0b1111_1001_0000_1010 (.ldVxK 9) &&
    isWordOf 0b1111_1001_0001_0101 (.ldDTVx 9) && isWordOf 0b1111_1001_0001_1000 (.ldSTVx 9) &&
    isWordOf 0b1111_1001_0001_1110 (.addI 9) && isWordOf 0b1111_1001_0011_0011 (.ldB 9) &&
    isWordOf 0b1111_1001_0101_0101 (.storeRegs 9) && isWordOf 0b1111_1001_0110_0101 (.loadRegs 9) = true := by decide

/-- R77, R78: 8128, C0FF, F029, 0000 are unmatched; 01E0 and 5121 are matched with DECODE_STRICT = false only. -/
theorem test_decode_unmatched :
    decodeWord true 0x8128 = .unmatched 0x8128 ∧ decodeWord true 0xC0FF = .unmatched 0xC0FF ∧
    decodeWord true 0xF029 = .unmatched 0xF029 ∧ decodeWord true 0x0000 = .unmatched 0x0000 ∧
    decodeWord true 0x01E0 = .unmatched 0x01E0 ∧ decodeWord false 0x01E0 = .instr (.cls 1) ∧
    decodeWord true 0x5121 = .unmatched 0x5121 ∧ decodeWord false 0x5121 = .instr (.seReg 1 2 1) := by decide

/-- Two bytes are consumed whatever they are (R70); fewer are no word. -/
theorem test_decode_bytes :
    decodeBytes true [0xD1, 0x23, 0x77] = (.instr (.drw 1 2 3), [0x77]) ∧
    decodeBytes true [0xD1] = (.truncated 1, [0xD1]) ∧ decodeTableWord 16 0xD123 = some (.drw 1 2 3) ∧
    decodeTableWord 16 0xC123 = none := by decide

/-! ### Control transfer and skips (95_test_vectors.md section 2.3) -/

/-- TJ1, TJ2. -/
theorem test_jp : after base 0x200 0x1234 (fun t => t.pc == 0x234) &&
    after base 0x200 0x1200 (fun t => t.pc == 0x200) = true := by decide

/-- TJ4. -/
theorem test_call_last_slot : after (base.setSP 15) 0x400 0x2300
    (fun t => t.stack[15] == 0x402 && t.sp == 16 && t.pc == 0x300) = true := by decide

/-- TJ5. -/
theorem test_call_overflow : after (base.setSP 16) 0x400 0x2300 (faultedWith .stackOverflow 16 0x2300 0x400) = true := by
  decide

/-- TJ6: the slot is not cleared. -/
theorem test_ret : after ((base.setSP 1).setSlot 0 0x206) 0x300 0x00EE
    (fun t => t.pc == 0x206 && t.sp == 0 && t.stack[0] == 0x206) = true := by decide

/-- TJ7. -/
theorem test_ret_underflow : after base 0x210 0x00EE (faultedWith .stackUnderflow 0 0x00EE 0x210) = true := by decide

/-- TJ8, TJ9; the register is V0 although the X nibble is 3 and 0xF. -/
theorem test_jpV0 : after (base.writeV 0 0x10) 0x200 0xB300 (fun t => t.pc == 0x310) &&
    after (base.writeV 0 0xFF) 0x200 0xBFFF (fun t => t.pc == 0x10FE) = true := by decide

/-- TJ10, TJ11. -/
theorem test_seByte : after (base.writeV 3 0x12) 0x200 0x3312 (fun t => t.pc == 0x204) &&
    after (base.writeV 3 0x13) 0x200 0x3312 (fun t => t.pc == 0x202) = true := by decide

/-- TJ18: a skip past the end. -/
theorem test_seByte_at_the_end : after base 0xFFE 0x3000 (fun t => t.pc == 0x1002) = true := by decide

/-- TJ12, TJ13. -/
theorem test_sneByte : after base 0x200 0x4001 (fun t => t.pc == 0x204) &&
    after (base.writeV 0 1) 0x200 0x4001 (fun t => t.pc == 0x202) = true := by decide

/-- TJ14, and a skip not taken. -/
theorem test_seReg : after ((base.writeV 1 7).writeV 2 7) 0x200 0x5120 (fun t => t.pc == 0x204) &&
    after ((base.writeV 1 7).writeV 2 8) 0x200 0x5120 (fun t => t.pc == 0x202) = true := by decide

/-- TJ16, TJ17. -/
theorem test_sneReg : after ((base.writeV 1 7).writeV 2 8) 0x200 0x9120 (fun t => t.pc == 0x204) &&
    after (base.writeV 1 7) 0x200 0x9110 (fun t => t.pc == 0x202) = true := by decide

/-! ### Registers and arithmetic (section 2.4) -/

/-- S3: VA is set, its neighbours stay. -/
theorem test_ldByte : after ((base.writeV 9 10).writeV 0xB 12) 0x200 0x6A7B
    (fun t => t.readV 0xA == 0x7B && t.readV 9 == 10 && t.readV 0xB == 12) = true := by decide

/-- S4, TA2: no flag. -/
theorem test_addByte :
    after ((base.writeV 1 250).writeV 0xF 0x55) 0x200 0x710A (fun t => t.readV 1 == 4 && t.readV 0xF == 0x55) &&
    after (base.writeV 0xF 0xFF) 0x200 0x7F01 (fun t => t.readV 0xF == 0) = true := by decide

/-- TA4. -/
theorem test_ldReg : after (base.writeV 2 0x33) 0x200 0x8120 (fun t => t.readV 1 == 0x33 && t.readV 2 == 0x33) = true := by
  decide

/-- TA5: VF is kept. -/
theorem test_orReg : after (((base.writeV 1 0x0F).writeV 2 0xF0).writeV 0xF 0x77) 0x200 0x8121
    (fun t => t.readV 1 == 0xFF && t.readV 0xF == 0x77) = true := by decide

/-- TA6. -/
theorem test_andReg : after ((base.writeV 1 0x3C).writeV 2 0x0F) 0x200 0x8122 (fun t => t.readV 1 == 0x0C) = true := by
  decide

/-- TA7: X = Y. -/
theorem test_xorReg : after (base.writeV 1 0xAA) 0x200 0x8113 (fun t => t.readV 1 == 0) = true := by decide

/-- TA11: the old VF is the operand. -/
theorem test_addReg_reads_old_vf : after ((base.writeV 1 0x10).writeV 0xF 0xFF) 0x200 0x81F4
    (fun t => t.readV 1 == 0x0F && t.readV 0xF == 1) = true := by decide

/-- TA12 in both orders. -/
theorem test_addReg_into_vf :
    after ((base.writeV 0xF 0xF0).writeV 0xE 0x20) 0x200 0x8FE4 (fun t => t.readV 0xF == 1) &&
    after (((withCfg base { flagOrder := .resultLast }).writeV 0xF 0xF0).writeV 0xE 0x20) 0x200 0x8FE4
      (fun t => t.readV 0xF == 0x10) = true := by decide

/-- S6. -/
theorem test_subReg :
    after ((base.writeV 1 5).writeV 2 10) 0x200 0x8125 (fun t => t.readV 1 == 251 && t.readV 0xF == 0) &&
    after ((base.writeV 1 10).writeV 2 5) 0x200 0x8125 (fun t => t.readV 1 == 5 && t.readV 0xF == 1) = true := by decide

/-- TA13: equal operands borrow nothing. -/
theorem test_subReg_equal : after (base.writeV 1 0x42) 0x200 0x8115
    (fun t => t.readV 1 == 0 && t.readV 0xF == 1) = true := by decide

/-- TA17: VY is ignored. -/
theorem test_shr : after (base.writeV 1 0xFF) 0x200 0x8126 (fun t => t.readV 1 == 0x7F && t.readV 0xF == 1) = true := by
  decide

/-- TA19 in both orders. -/
theorem test_shr_of_vf : after (base.writeV 0xF 2) 0x200 0x8F06 (fun t => t.readV 0xF == 0) &&
    after ((withCfg base { flagOrder := .resultLast }).writeV 0xF 2) 0x200 0x8F06 (fun t => t.readV 0xF == 1) = true := by
  decide

/-- TA20, TA21. -/
theorem test_subnReg :
    after ((base.writeV 1 5).writeV 2 10) 0x200 0x8127 (fun t => t.readV 1 == 5 && t.readV 0xF == 1) &&
    after ((base.writeV 1 10).writeV 2 5) 0x200 0x8127 (fun t => t.readV 1 == 251 && t.readV 0xF == 0) = true := by decide

/-- TA23, TA24. -/
theorem test_shl : after (base.writeV 1 0x81) 0x200 0x810E (fun t => t.readV 1 == 0x02 && t.readV 0xF == 1) &&
    after (base.writeV 1 0x7F) 0x200 0x810E (fun t => t.readV 1 == 0xFE && t.readV 0xF == 0) = true := by decide

/-! ### Index register and memory (section 2.5) -/

/-- TM1. -/
theorem test_ldI : after base 0x200 0xA300 (fun t => t.i == 0x300) = true := by decide

/-- TM3 (no flag), TM4 (the wrap). -/
theorem test_addI :
    after (((base.setI 0xFFF).writeV 0 1).writeV 0xF 0x55) 0x200 0xF01E
      (fun t => t.i == 0x1000 && t.readV 0xF == 0x55) &&
    after ((base.setI 0xFFFF).writeV 0 1) 0x200 0xF01E (fun t => t.i == 0) = true := by decide

/-- TM5, I unchanged. -/
theorem test_ldB : after ((base.setI 0x300).writeV 0xA 123) 0x200 0xFA33
    (fun t => t.mem.read 0x300 == 1 && t.mem.read 0x301 == 2 && t.mem.read 0x302 == 3 && t.i == 0x300) = true := by decide

/-- TM9. -/
theorem test_ldB_bounds : after (base.setI 0xFFE) 0x202 0xF033 (faultedWith .bounds 0x1000 0xF033 0x202) = true := by
  decide

/-- TM10, with TM11's byte that must stay. -/
theorem test_storeRegs : after (withBytes ((((base.setI 0x400).writeV 0 1).writeV 1 2).writeV 2 3) 0x403 [0x99])
    0x200 0xF255
    (fun t => t.mem.read 0x400 == 1 && t.mem.read 0x401 == 2 && t.mem.read 0x402 == 3 && t.mem.read 0x403 == 0x99 &&
      t.i == 0x400) = true := by decide

/-- TM13. -/
theorem test_storeRegs_bounds : after (base.setI 0xFF1) 0x300 0xFF55 (faultedWith .bounds 0x1000 0xFF55 0x300) = true := by
  decide

/-- TM14. -/
theorem test_loadRegs : after (withBytes ((base.setI 0x300).writeV 3 0x77) 0x300 [1, 2, 3]) 0x200 0xF265
    (fun t => t.readV 0 == 1 && t.readV 1 == 2 && t.readV 2 == 3 && t.readV 3 == 0x77) = true := by decide

/-- TM16: the address is not reduced. -/
theorem test_loadRegs_bounds : after (base.setI 0xFFFF) 0x300 0xF065 (faultedWith .bounds 0xFFFF 0xF065 0x300) = true := by
  decide

/-! ### Display (section 2.6) -/

/-- TG10, one row of it. -/
theorem test_cls : after ((base.setDisplay (oneRow 7 (by decide) 0xFFFFFFFFFFFFFFFF)).writeV 0xF 0x55) 0x200 0x00E0
    (fun t => t.display[7] == 0 && t.readV 0xF == 0x55) = true := by decide

/-- TG6: clipped at the right edge, with a collision; TG9: the origin is the old VF. -/
theorem test_drw :
    after (withBytes (((base.setDisplay (oneRow 0 (by decide) 1)).writeV 0 62).setI 0x300) 0x300 [0xFF]) 0x200 0xD011
      (fun t => t.display[0] == 2 && t.readV 0xF == 1) &&
    after (withBytes ((base.writeV 0xF 10).setI 0x300) 0x300 [0x80]) 0x200 0xDF11
      (fun t => t.display[0] == 0x0020000000000000 && t.readV 0xF == 0) = true := by decide

/-- TG8: a clipped row is still checked. -/
theorem test_drw_bounds : after ((base.setI 0xFFF).writeV 1 31) 0x300 0xD012
    (faultedWith .bounds 0x1000 0xD012 0x300) = true := by decide

/-! ### Keypad and timers (section 2.7); `ready` puts KS at the keys input -/

/-- TK1, TK2. -/
theorem test_skp : after ((base.writeV 5 7).setKS 0x80) 0x300 0xE59E (fun t => t.pc == 0x304) &&
    after (base.writeV 5 7) 0x300 0xE59E (fun t => t.pc == 0x302) = true := by decide

/-- TK5 under both policies. -/
theorem test_skp_index : after (base.writeV 5 16) 0x300 0xE59E (faultedWith .keyIndex 16 0xE59E 0x300) &&
    after ((withCfg base { keyIndex := .notHeld }).writeV 5 16) 0x300 0xE59E (fun t => t.pc == 0x302) = true := by decide

/-- TK3, TK4. -/
theorem test_sknp : after (base.writeV 5 7) 0x300 0xE5A1 (fun t => t.pc == 0x304) &&
    after ((base.writeV 5 7).setKS 0x80) 0x300 0xE5A1 (fun t => t.pc == 0x302) = true := by decide

/-- TK6 under both policies. -/
theorem test_sknp_index : after (base.writeV 5 16) 0x300 0xE5A1 (faultedWith .keyIndex 16 0xE5A1 0x300) &&
    after ((withCfg base { keyIndex := .notHeld }).writeV 5 16) 0x300 0xE5A1 (fun t => t.pc == 0x304) = true := by decide

/-- TK7. -/
theorem test_ldVxK_waits : after ((base.setDT 3).writeV 3 9) 0x206 0xF30A
    (fun t => t.pc == 0x206 && t.readV 3 == 9 && t.dt == 2) = true := by decide

/-- TK8, TK9. -/
theorem test_ldVxK_takes :
    after (base.setKS 0x0210) 0x206 0xF30A (fun t => t.readV 3 == 4 && t.pc == 0x208) &&
    after (base.setKS 0x8000) 0x206 0xFF0A (fun t => t.readV 0xF == 0x0F && t.pc == 0x208) = true := by decide

/-- TK10. -/
theorem test_ldVxDT : after (base.setDT 4) 0x200 0xF107 (fun t => t.readV 1 == 4 && t.dt == 3) = true := by decide

/-- TK11 (coupled), TK13. -/
theorem test_ldDTVx : after (base.writeV 0 5) 0x200 0xF015 (fun t => t.dt == 4) &&
    after (base.setDT 9) 0x200 0xF015 (fun t => t.dt == 0) = true := by decide

/-- TK14, TK15. -/
theorem test_ldSTVx : after (base.writeV 2 1) 0x200 0xF218 (fun t => t.st == 0) &&
    after (base.writeV 2 0xFF) 0x200 0xF218 (fun t => t.st == 0xFE) = true := by decide

/-! ### The cycle and the ports (section 2.2) -/

/-- TY1: the halt, no timer step. -/
theorem test_cycle_halt :
    nextHas (fun t => t.rs == .halted && t.pc == 0xFFF && t.dt == 3 && t.fr == none)
      (step (((base.setDT 3).setPC 0xFFF).setPorts [.keys 0])) = true := by decide

/-- TY2, TY3: the last word of memory; an odd address. -/
theorem test_cycle_addresses : after base 0xFFE 0x6007 (fun t => t.readV 0 == 7 && t.pc == 0x1000) &&
    after base 0x301 0x6309 (fun t => t.readV 3 == 9 && t.pc == 0x303) = true := by decide

/-- TY4, TY5. -/
theorem test_cycle_unmatched :
    after ((base.setDT 2).setST 1) 0x300 0xC123 (fun t => t.pc == 0x302 && t.dt == 1 && t.st == 0) &&
    after (withCfg base { unmatched := .fault }) 0x300 0xC123 (faultedWith .unmatched 0xC123 0xC123 0x300) = true := by
  decide

/-- TY7: no timer step in independent mode. -/
theorem test_cycle_independent :
    after ((withCfg base { timerMode := .independent }).setDT 5) 0x200 0x6000 (fun t => t.dt == 5) = true := by decide

/-- S1: load; a byte that would land at 0x1000 is dropped (TY8, said of the operation). -/
theorem test_load :
    nextHas (fun t => t.mem.read 0x200 == 0xAB && t.mem.read 0x201 == 0xCD)
      (step (State.reset.setPorts [.load [0xAB, 0xCD]])) &&
    (Memory.loadAt [] 0xFFF [0xAB, 0xCD] == [(0xFFF, 0xAB)]) = true := by decide

/-- R44: start. -/
theorem test_start : nextHas (fun t => t.rs == .running) (step (State.reset.setPorts [.start])) = true := by decide

/-- Memory stays canonical: writing 0 removes the entry. -/
theorem test_memory_canonical :
    Memory.write [(1, 5), (3, 7)] 3 0 = [(1, 5)] ∧ Memory.write [(1, 5), (3, 7)] 2 6 = [(1, 5), (2, 6), (3, 7)] ∧
    Memory.wf [(1, 5), (1, 7)] = false ∧ Memory.wf [(1, 0)] = false ∧ Memory.wf [(4096, 1)] = false := by decide

/-! ### Data that meet the hypotheses of the obligations

Each theorem names the obligation; a conjunct for each clause, at a boundary where the clause has one. -/

/-- The rows 00E0 to 8XY5, operands at 0 and at their greatest values. -/
def lowRows : List Instr :=
  [.cls 0, .ret 0, .jp 0xFFF, .call 0, .seByte 0xF 0xFF, .sneByte 0 0, .seReg 0xF 0xF 0, .ldByte 0xF 0xFF,
    .addByte 0 0, .ldReg 0xF 0, .orReg 0 0xF, .andReg 0 0, .xorReg 0xF 0xF, .addReg 0xF 0xE, .subReg 0 0]

/-- The rows 8XY6 to FX65. -/
def highRows : List Instr :=
  [.shr 0xF 0xF, .subnReg 0 0xF, .shl 0xF 0, .sneReg 0 0xF 0, .ldI 0xFFF, .jpV0 0xFFF, .drw 0xF 0xF 0xF, .skp 0xF,
    .sknp 0, .ldVxDT 0xF, .ldVxK 0, .ldDTVx 0xF, .ldSTVx 0, .addI 0xF, .ldB 0, .storeRegs 0xF, .loadRegs 0xF]

/-- One instruction of every row. -/
def everyRow : List Instr := lowRows ++ highRows

/-- A word that matches each row, for the decoding clauses of all obligations, of DecoderFollowsOpcodeMap and of
EncodeOfDecodedWord; a well-formed instruction for DecodeOfEncodedInstruction. -/
theorem test_witness_DecodesAs : everyRow.all (fun i =>
    (encode i &&& rowMask true i == rowMatch i) && i.wellFormed true && decodeWord true (encode i) == .instr i) = true := by
  decide

/-- The words that only DECODE_STRICT = false matches. -/
theorem test_witness_DecodesAs_lax :
    (0x0FE0 : Word) &&& 0xF0FF = 0x00E0 ∧ (0x0FEE : Word) &&& 0xF0FF = 0x00EE ∧ (0x5FFF : Word) &&& 0xF000 = 0x5000 ∧
    (0x9FFF : Word) &&& 0xF000 = 0x9000 ∧ (Instr.seReg 0xF 0xF 0xF).wellFormed false = true := by decide

/-- A word that matches no row, for the other case of DecoderFollowsOpcodeMap. -/
theorem test_witness_DecoderFollowsOpcodeMap :
    decodeWord true 0xC123 = .unmatched 0xC123 ∧
    everyRow.all (fun i => (0xC123 : Word) &&& rowMask true i != rowMatch i) = true := by decide

/-- What a reset is given: an image byte at each end of memory. -/
def launch : Launch where
  v := Vector.replicate 16 7
  i := 0xFFFF
  stack := Vector.replicate 16 0x1000
  dt := 1
  st := 2
  display := Vector.replicate 32 1
  mem := [(0, 0xAB), (0xFFF, 0xCD)]

/-- Both values of RESET_ZERO, addresses listed (the first and the last) and not listed. -/
theorem test_witness_ResetEventLeavesResetValues :
    (base.setPorts [.reset launch]).ports = .reset launch :: [] ∧ base.cfg.resetZero = true ∧
    ((withCfg base { resetZero := false }).setPorts [.reset launch]).ports = .reset launch :: [] ∧
    (withCfg base { resetZero := false }).cfg.resetZero = false ∧ (launch.mem.map Prod.fst).Nodup ∧
    (0, 0xAB) ∈ launch.mem ∧ (0xFFF, 0xCD) ∈ launch.mem ∧ launch.mem.all (fun c => c.1 != 1) = true := by decide

/-- A step that writes memory at its end, and one that ends in a fault. -/
theorem test_witness_StepKeepsMemoryCanonical :
    (let s := ready (base.setI 0xFFF) 0x200 0xF055;
      s.MemoryCanonical ∧ ∃ t, step s = .next t) ∧
    (let s := ready base 0x200 0x00EE;
      s.MemoryCanonical ∧ ∃ t, step s = .next t) := by
  refine ⟨⟨?_, (exists_next (p := fun _ => true) (by decide)).imp fun _ h => h.1⟩,
    ?_, (exists_next (p := fun _ => true) (by decide)).imp fun _ h => h.1⟩ <;>
  · unfold State.MemoryCanonical; decide

/-- A step into a fault. -/
theorem test_witness_StepKeepsRecordIffFaulted :
    let s := ready base 0x200 0x00EE
    s.RecordIffFaulted ∧ ∃ t, step s = .next t ∧ (t.rs == .faulted) = true :=
  ⟨by unfold State.RecordIffFaulted; decide, exists_next (by decide)⟩

/-- A jump to the highest PC, with a full stack of the highest addresses. -/
theorem test_witness_StepKeepsPcInRange :
    let s := ready { base.writeV 0 0xFF with stack := Vector.replicate 16 0x1000, sp := 16 } 0x200 0xBFFF
    s.PcInRange ∧ nextHas (fun t => t.pc == 0x10FE) (step s) = true := by
  refine ⟨fun _ => ?_, ?_⟩ <;> decide

/-- A cycle at the last address that can be fetched, from the schedule and from an empty one. -/
theorem test_witness_StepRunsTheDecodedInstruction :
    (CycleIsNext (ready base 0xFFE 0x6007) 0 [] ∧
      decodeWord true (ready base 0xFFE 0x6007).wordAtPC = .instr (.ldByte 0 7)) ∧
    (let s := (ready base 0xFFE 0x6007).setPorts [];
      s.rs = .running ∧ s.ports = [] ∧ s.cfg.timerMode = .coupled ∧ s.pc.toNat ≤ 0xFFE ∧
      decodeWord s.cfg.decodeStrict s.wordAtPC = .instr (.ldByte 0 7)) := by
  unfold CycleIsNext; decide

/-- The lowest address that cannot be fetched, and one that no memory has. -/
theorem test_witness_CyclePastTheEndHalts :
    (let s := (base.setPC 0xFFF).setPorts [.keys 0];
      s.rs = .running ∧ s.ports = .keys 0 :: [] ∧ 0xFFE < s.pc.toNat) ∧
    (let s := (base.setPC 0x10FE).setPorts [.keys 0];
      s.rs = .running ∧ s.ports = .keys 0 :: [] ∧ 0xFFE < s.pc.toNat) := by decide

/-- Both policies, both timer modes. -/
theorem test_witness_UnmatchedWordIsNoopOrFault :
    [Params.mk .coupled .noop true .flagLast .fault true 60, Params.mk .independent .noop true .flagLast .fault true 60,
      Params.mk .coupled .fault true .flagLast .fault true 60].all (fun c =>
      let s := ready (withCfg base c) 0xFFE 0x812F
      s.rs == .running && s.ports == [.keys 0] && s.cfg == c && decide (s.pc.toNat ≤ 0xFFE) &&
        decodeWord s.cfg.decodeStrict s.wordAtPC == .unmatched s.wordAtPC) = true := by decide

/-- A timer at 1 and one at 0; a cycle, without a fault and without a reset, of neither instruction that writes a
timer. -/
theorem test_witness_TimersClampAtZero :
    (base.setDT 1).dt ≠ 0 ∧ base.dt = 0 ∧ (base.setST 1).st ≠ 0 ∧ base.st = 0 ∧
    (let s := ready base 0x200 0x6000;
      (∃ t, step s = .next t ∧ (t.rs != .faulted) = true) ∧ s.ports = [.keys 0] ∧ s.dt = 0 ∧ s.st = 0 ∧
      decodeWord s.cfg.decodeStrict s.wordAtPC = .instr (.ldByte 0 0)) :=
  ⟨by decide, by decide, by decide, by decide, exists_next (by decide), by decide, by decide, by decide, by decide⟩

/-- An image of two bytes. -/
theorem test_witness_LoadCopiesTheImage :
    let s := State.reset.setPorts [.load [0xAB, 0xCD]]
    s.MemoryCanonical ∧ s.rs = .loaded ∧ s.ports = .load [0xAB, 0xCD] :: [] := by
  unfold State.MemoryCanonical; decide

/-- Every clause: the port, the run state and the mode it asks for. -/
theorem test_witness_PortsActAsStated :
    ((State.reset.setPorts [.start]).ports = .start :: [] ∧ State.reset.rs = .loaded ∧ base.rs ≠ .loaded) ∧
    ((base.setPorts [.tick]).ports = .tick :: [] ∧ base.cfg.timerMode = .coupled ∧
      (withCfg base { timerMode := .independent }).cfg.timerMode = .independent ∧ base.rs = .running ∧
      (base.setRS .halted).rs ≠ .running) ∧
    ((base.setPorts [.load [1]]).ports = .load [1] :: [] ∧ (base.setPorts [.load [1]]).rs ≠ .loaded) ∧
    ((State.reset.setPorts [.keys 1]).ports = .keys 1 :: [] ∧ (State.reset.setPorts [.keys 1]).rs ≠ .running) ∧
    State.reset.ports = [] ∧ (base.setRS .halted).rs = .halted ∧ (base.setRS .halted).ports = [] ∧
    (base.setRS .faulted).rs = .faulted := by decide

/-- A tick of a halted and of a faulted machine in independent mode. -/
theorem test_witness_OnlyResetLeavesHaltedOrFaulted :
    [RunState.halted, RunState.faulted].all (fun r =>
      let s := ((withCfg base { timerMode := .independent }).setRS r).setPorts [.tick]
      s.rs == r && s.ports == [.tick] && nextHas (fun t => t.rs == r) (step s)) = true := by decide

/-- The conditions of the skips, held and not held. -/
theorem test_witness_SkipOnImmediate : base.readV 3 = 0 ∧ (base.writeV 3 0xFF).readV 3 ≠ 0 := by decide

theorem test_witness_SkipOnRegisters : base.readV 3 = base.readV 0xF ∧
    (base.writeV 3 0xFF).readV 3 ≠ (base.writeV 3 0xFF).readV 0xF := by decide

/-- SP = 1, 16 and 0. -/
theorem test_witness_ReturnPopsOrUnderflows :
    (base.setSP 1).sp.val = (0 : Fin 16).val + 1 ∧ (base.setSP 16).sp.val = (15 : Fin 16).val + 1 ∧ base.sp = 0 := by decide

/-- SP = 0, 15 and 16. -/
theorem test_witness_CallPushesOrOverflows :
    base.sp.val = (0 : Fin 16).val ∧ (base.setSP 15).sp.val = (15 : Fin 16).val ∧ (base.setSP 16).sp = 16 := by decide

/-- SP = 15: the call fills the stack; the state to return from is the one the call left. -/
theorem test_witness_CallThenReturnRoundTrip :
    (base.setSP 15).sp.val < 16 ∧
    ∃ t, exec (.call 0x300) (base.setSP 15) = .next t ∧ ∃ u : State, u.stack = t.stack ∧ u.sp = t.sp :=
  ⟨by decide, _, rfl, _, rfl, rfl⟩

/-- The clauses of WritesResultAndFlag, for AddWithCarry, SubtractWithNotBorrow and ShiftsByOne. -/
theorem test_witness_WritesResultAndFlag :
    (0 : Nibble) ≠ 1 ∧ (0 : Nibble) ≠ 0xF ∧ base.cfg.flagOrder = .flagLast ∧
    (withCfg base { flagOrder := .resultLast }).cfg.flagOrder = .resultLast := by decide

/-- I + 2 = 0xFFF. -/
theorem test_witness_BcdStoresThreeDigits :
    (base.setI 0xFFD).MemoryCanonical ∧ (base.setI 0xFFD).operandAddr 2 < 4096 := by
  unfold State.MemoryCanonical; decide

/-- I + X = 0xFFF with X = 15 and with X = 0; a register above X. -/
theorem test_witness_BlockStore :
    (base.setI 0xFF0).MemoryCanonical ∧ (base.setI 0xFF0).operandAddr (0xF : Nibble).toNat < 4096 ∧
    (base.setI 0xFFF).operandAddr (0 : Nibble).toNat < 4096 ∧ (0xF : Nibble).toNat ≤ (0xF : Nibble).toNat ∧
    0xFEF < (base.setI 0xFF0).operandAddr 0 ∧ (base.setI 0xFFE).operandAddr (0 : Nibble).toNat < 0xFFF := by
  unfold State.MemoryCanonical; decide

theorem test_witness_BlockLoad :
    (base.setI 0xFF0).operandAddr (0xF : Nibble).toNat < 4096 ∧ (base.setI 0xFFF).operandAddr (0 : Nibble).toNat < 4096 ∧
    (0xE : Nibble).toNat < (0xF : Nibble).toNat := by decide

/-- The state to load from is the one the store left, with a register changed. -/
theorem test_witness_BlockStoreThenLoadRestores :
    (base.setI 0xFF0).MemoryCanonical ∧ (base.setI 0xFF0).operandAddr (0xF : Nibble).toNat < 4096 ∧
    ∃ t, exec (.storeRegs 0xF) (base.setI 0xFF0) = .next t ∧ (t.writeV 3 1).i = t.i ∧ (t.writeV 3 1).mem = t.mem :=
  ⟨by unfold State.MemoryCanonical; decide, by decide, _, rfl, rfl, rfl⟩

/-- The lowest bad address is 4096 behind a good one, or I itself; FX33 has 3 addresses, FX55 and FX65 have X + 1,
DXYN has N. -/
theorem test_witness_OutOfBoundsAccessFaults :
    (let s := base.setI 0xFFE;
      (∃ k, k < 3 ∧ 4096 = s.i.toNat + k) ∧ ∀ k, k < 3 → 4096 ≤ s.i.toNat + k → 4096 ≤ s.i.toNat + k) ∧
    (let s := base.setI 0xFFFF;
      (∃ k, k < (0 : Nibble).toNat + 1 ∧ 0xFFFF = s.i.toNat + k) ∧
        ∀ k, k < (0 : Nibble).toNat + 1 → 4096 ≤ s.i.toNat + k → 0xFFFF ≤ s.i.toNat + k) ∧
    (let s := base.setI 0xFF1;
      (∃ k, k < (0xF : Nibble).toNat + 1 ∧ 4096 = s.i.toNat + k) ∧
      (∃ k, k < (0xF : Nibble).toNat ∧ 0xFFF = s.i.toNat + k) ∧ 4096 ≤ s.i.toNat + 15) ∧
    (let s := base.setI 0xFF2;
      ∃ k, k < (0xF : Nibble).toNat ∧ 4096 = s.i.toNat + k) :=
  ⟨⟨⟨2, by decide, by decide⟩, fun _ _ h => h⟩, ⟨⟨0, by decide, by decide⟩, by decide⟩,
    ⟨⟨15, by decide, by decide⟩, ⟨14, by decide, by decide⟩, by decide⟩, ⟨14, by decide, by decide⟩⟩

/-- The last two bytes of memory. -/
theorem test_witness_StoredWordIsFetched :
    (base.setI 0xFF0).MemoryCanonical ∧ (base.setI 0xFF0).operandAddr (0xF : Nibble).toNat < 4096 ∧
    (0xE : Nibble).toNat < (0xF : Nibble).toNat := by
  unfold State.MemoryCanonical; decide

/-- A machine with one sprite byte 0x80 at 0x300, drawn by `DRW V0, V1, 1` at the lower right corner. -/
def sprite : State := withBytes (((base.setI 0x300).writeV 0 63).writeV 1 31) 0x300 [0x80]

/-- N = 0 with I out of memory; I + N = 4096; a pixel hit, lit before or not; a pixel not hit. -/
theorem test_witness_DrawTogglesSpritePixels :
    ((0 : Nibble) = 0 ∨ (base.setI 0xFFFF).i.toNat + (0 : Nibble).toNat ≤ 4096) ∧
    (base.setI 0xFF1).i.toNat + (0xF : Nibble).toNat ≤ 4096 ∧
    spriteHits sprite 0 1 1 63 31 ∧ ¬spriteHits sprite 0 1 1 62 31 ∧ sprite.pixel 63 31 = false ∧
    (sprite.setDisplay (oneRow 31 (by decide) 1)).pixel 63 31 = true ∧
    (∀ cx cy, spriteHits base 0 1 0 cx cy → base.pixel cx cy = false) := by
  refine ⟨by decide, by decide, ⟨0, 0, by decide⟩, ?_, by decide, by decide, ?_⟩
  · rintro ⟨r, c, -, -, -, h, -⟩
    have h0 : (sprite.readV 0).toNat % 64 = 63 := by decide
    omega
  · rintro cx cy ⟨r, c, h, -⟩
    exact absurd h (by simp)

/-- A clear display; a sprite with a set bit on the screen, and one without. -/
theorem test_witness_DrawTwiceRestoresTheDisplay :
    (0 : Nibble) ≠ 0xF ∧ (1 : Nibble) ≠ 0xF ∧ sprite.i.toNat + (1 : Nibble).toNat ≤ 4096 ∧
    (∀ k : Fin 32, sprite.display[k] = 0) ∧ (∃ cx cy, spriteHits sprite 0 1 1 cx cy) ∧
    (∀ cx cy, ¬spriteHits sprite 0 1 0 cx cy) := by
  refine ⟨by decide, by decide, by decide, by decide, ⟨63, 31, 0, 0, by decide⟩, ?_⟩
  rintro cx cy ⟨r, c, h, -⟩
  exact absurd h (by simp)

/-- Key 15 held and released; index 16 under not_held. -/
theorem test_witness_KeySkips :
    (((base.writeV 5 15).setKS 0x8000).readV 5).toNat ≤ 15 ∧
    ((base.writeV 5 15).setKS 0x8000).ks.getLsbD (((base.writeV 5 15).setKS 0x8000).readV 5).toNat = true ∧
    (base.writeV 5 15).ks.getLsbD ((base.writeV 5 15).readV 5).toNat = false ∧
    15 < (((withCfg base { keyIndex := .notHeld }).writeV 5 16).readV 5).toNat ∧
    ((withCfg base { keyIndex := .notHeld }).writeV 5 16).cfg.keyIndex = .notHeld := by decide

theorem test_witness_KeyIndexAbove15Faults :
    15 < ((base.writeV 5 16).readV 5).toNat ∧ (base.writeV 5 16).cfg.keyIndex = .fault := by decide

/-- Key 15 alone, key 0 among others, no key. -/
theorem test_witness_WaitForKeyTakesLowestKey :
    ((base.setKS 0x8000).ks.getLsbD 15 = true ∧ ∀ j, j < 15 → (base.setKS 0x8000).ks.getLsbD j = false) ∧
    ((base.setKS 0x8001).ks.getLsbD 0 = true ∧ ∀ j, j < 0 → (base.setKS 0x8001).ks.getLsbD j = false) ∧
    ∀ k, k < 16 → base.ks.getLsbD k = false := by decide

/-- Two cycles without a key, in both timer modes. -/
theorem test_witness_WaitForKeyHoldsUntilKeyPressed :
    [TimerMode.coupled, TimerMode.independent].all (fun m =>
      let s := (ready (withCfg base { timerMode := m }) 0xFFE 0xF30A).setPorts [.keys 0, .keys 0, .keys 1]
      s.rs == .running && decide (s.pc.toNat ≤ 0xFFE) && s.cfg.timerMode == m &&
        s.ports == List.replicate 2 (PortEvent.keys 0) ++ [PortEvent.keys 1] &&
        decodeWord s.cfg.decodeStrict s.wordAtPC == .instr (.ldVxK 3)) = true := by decide

/-- The three instructions, in both timer modes. -/
theorem test_witness_TimerStepEndsTheCycle :
    [TimerMode.coupled, TimerMode.independent].all (fun m =>
      [(0xFF15, Instr.ldDTVx 0xF), (0xF018, .ldSTVx 0), (0xF107, .ldVxDT 1)].all fun p =>
        let s := ready (withCfg base { timerMode := m }) 0xFFE p.1
        s.rs == .running && s.ports == [.keys 0] && decide (s.pc.toNat ≤ 0xFFE) && s.cfg.timerMode == m &&
          decodeWord s.cfg.decodeStrict s.wordAtPC == .instr p.2) = true := by decide

/-- An instruction that completes, a register it may not write, and that it reads no keys. -/
theorem test_witness_ExecWritesOnlyItsFootprint :
    ∃ t, exec (.addReg 1 2) base = .next t ∧ t.rs ≠ .faulted := ⟨_, rfl, by decide⟩

theorem test_witness_ExecWritesOnlyNamedRegisters :
    ∃ t, exec (.addReg 1 2) base = .next t ∧ t.rs ≠ .faulted ∧ ¬(Instr.addReg 1 2).mayWriteV 3 :=
  ⟨_, rfl, by decide, by rintro (h | h) <;> exact absurd h (by decide)⟩

theorem test_witness_KeySampleReachesOnlyKeyInstructions :
    ∃ t, (Instr.addReg 1 2).readsKeys = false ∧ exec (.addReg 1 2) base = .next t ∧ t.rs ≠ .faulted :=
  ⟨_, rfl, rfl, by decide⟩

theorem test_witness_SoundTimerIsReadByNothing :
    (∃ t, exec (.ldVxDT 1) base = .next t ∧ t.rs ≠ .faulted ∧ ∀ x, Instr.ldVxDT 1 ≠ .ldSTVx x) ∧
    ∃ t, exec (.ldSTVx 1) base = .next t ∧ t.rs ≠ .faulted ∧ ∃ x, Instr.ldSTVx 1 = .ldSTVx x :=
  ⟨⟨_, rfl, by decide, nofun⟩, _, rfl, by decide, 1, rfl⟩

end Sys2Proof.Tests
end

section
/-! O15: what an instruction leaves unchanged, and a timer at 0 through a cycle and through a step (10_state.md
R33). -/

namespace Sys2Proof.Machine

variable {s t : State}

/-! ### The frame of an instruction -/

/-- An effect of the bytes at I that keeps all but `ps` does so inside the bounds check, unless the check faults. -/
theorem KeepsBut.withBytesAtI {ps : List Piece} {n : Nat} {i : Instr} (h : KeepsBut ps s t)
    (hg : (s.withBytesAtI n i t).rs ≠ .faulted) : KeepsBut ps s (s.withBytesAtI n i t) := by
  rcases s.withBytesAtI_cases n i t with he | ⟨_, _, _, he⟩
  · rwa [he]
  · simp [he] at hg

/-- Likewise for an effect of a key operand. -/
theorem KeepsBut.withKey {ps : List Piece} {x : Nibble} {i : Instr} {e : Bool → State}
    (h : ∀ b, KeepsBut ps s (e b)) (hg : (s.withKey x i e).rs ≠ .faulted) : KeepsBut ps s (s.withKey x i e) := by
  rcases s.withKey_cases x i e with ⟨b, he⟩ | ⟨_, _, _, he⟩
  · rw [he]; exact h b
  · simp [he] at hg

theorem KeepsBut.of_v (v : Vector Byte 16) : KeepsBut [.v] s { s with v := v } := by
  simp [KeepsBut]

theorem KeepsBut.writeResultFlag (x : Nibble) (r f : Byte) : KeepsBut [.v] s (s.writeResultFlag x r f) := by
  obtain ⟨v, hv⟩ := s.writeResultFlag_frame x r f
  rw [hv]
  exact .of_v v

theorem KeepsBut.skipIf (c : Prop) [Decidable c] : KeepsBut [.pc] s (s.skipIf c) := by
  simp [KeepsBut, State.skipIf_eq]

/-- An instruction that takes no fault changes the pieces of its footprint only. -/
theorem exec_keepsBut_footprint {i : Instr} (h : exec i s = .next t) (hg : t.rs ≠ .faulted) :
    KeepsBut i.footprint s t := by
  cases i with
  | seByte | sneByte | seReg | sneReg => cases h; exact .skipIf _
  | addReg | subReg | shr | subnReg | shl => cases h; exact .writeResultFlag _ _ _
  | ret x =>
    cases h
    by_cases hs : 0 < s.sp.val
    · simp [hs, State.popPC_eq, KeepsBut, Instr.footprint]
    · simp [hs] at hg
  | call nnn =>
    cases h
    by_cases hs : s.sp.val < 16
    · simp [hs, State.push_eq, KeepsBut, Instr.footprint]
    · simp [hs] at hg
  | drw x y n =>
    cases h
    refine .withBytesAtI ?_ hg
    obtain ⟨v, d, he⟩ := s.drawSprite_frame x y n
    simp [he, KeepsBut, Instr.footprint]
  | ldB | storeRegs => cases h; exact .withBytesAtI (by simp [KeepsBut, Instr.footprint]) hg
  | loadRegs x =>
    cases h
    refine .withBytesAtI ?_ hg
    obtain ⟨-, v, he⟩ := s.loadFirstRegs_spec (x.toNat + 1) (by omega)
    rw [he]
    exact .of_v v
  | skp | sknp => cases h; exact .withKey (fun _ => .skipIf _) hg
  | ldVxK x =>
    cases h
    cases s.firstHeld <;> simp [KeepsBut, Instr.footprint]
  | cls | jp | jpV0 | ldByte | addByte | ldReg | orReg | andReg | xorReg | ldI | addI | ldVxDT | ldDTVx | ldSTVx =>
    cases h
    simp [KeepsBut, Instr.footprint]

theorem dt_mem_footprint {i : Instr} : Piece.dt ∈ i.footprint ↔ ∃ x, i = .ldDTVx x := by
  cases i <;> simp [Instr.footprint]

theorem st_mem_footprint {i : Instr} : Piece.st ∈ i.footprint ↔ ∃ x, i = .ldSTVx x := by
  cases i <;> simp [Instr.footprint]

/-! ### A timer at 0 -/

@[simp] theorem decTimer_zero : decTimer 0#8 = 0#8 := rfl

/-- A timer step changes the two timers only. -/
theorem State.timerStep_keepsBut (s : State) : KeepsBut [.dt, .st] s s.timerStep := by
  simp [KeepsBut, State.timerStep_eq]

/-- A timer at 0 in `s` is at 0 in `t`, unless the word at PC in `s` is the instruction that writes it. -/
def ZeroTimersStay (s t : State) : Prop :=
  (s.dt = 0 → (∀ x, decodeWord s.cfg.decodeStrict s.wordAtPC ≠ .instr (.ldDTVx x)) → t.dt = 0) ∧
  (s.st = 0 → (∀ x, decodeWord s.cfg.decodeStrict s.wordAtPC ≠ .instr (.ldSTVx x)) → t.st = 0)

theorem ZeroTimersStay.of_zero (hd : s.dt = 0 → t.dt = 0) (hs : s.st = 0 → t.st = 0) : ZeroTimersStay s t :=
  ⟨fun h _ => hd h, fun h _ => hs h⟩

theorem ZeroTimersStay.of_eq (hd : t.dt = s.dt) (hs : t.st = s.st) : ZeroTimersStay s t :=
  .of_zero (hd ▸ id) (hs ▸ id)

/-- What follows keeps a timer at 0 whatever the word at PC has become. -/
theorem ZeroTimersStay.trans_zero {u : State} (h : ZeroTimersStay s t) (hd : t.dt = 0 → u.dt = 0)
    (hs : t.st = 0 → u.st = 0) : ZeroTimersStay s u :=
  ⟨fun h0 hw => hd (h.1 h0 hw), fun h0 hw => hs (h.2 h0 hw)⟩

@[simp] theorem State.endCycle_rs (t : State) : t.endCycle.rs = t.rs := by
  obtain ⟨_, _, _, _, he⟩ := t.endCycle_frame
  rw [he]

/-- The end of a cycle leaves each timer as it is or decrements it, so it keeps one at 0. -/
theorem State.endCycle_zero (t : State) :
    (t.dt = 0 → t.endCycle.dt = 0) ∧ (t.st = 0 → t.endCycle.st = 0) := by
  by_cases hf : t.rs = .faulted
  · simp [State.endCycle_faulted hf]
  · cases hm : t.cfg.timerMode <;>
      simp +contextual [State.endCycle_good hf, State.releaseSample_eq, State.coupledTimerStep_eq, hm]

/-- The execute step of a cycle, where it takes no fault. -/
theorem executeWord_zeroTimersStay {k : Word} (h : executeWord s.wordAtPC (s.fetched k) = .next t)
    (hg : t.rs ≠ .faulted) : ZeroTimersStay s t := by
  rcases executeWord_cases s.wordAtPC (s.fetched k) with ⟨i, hi, he⟩ | he | he <;> rw [he] at h
  · obtain ⟨-, -, -, -, -, hdt, hst, -⟩ := exec_keepsBut_footprint h hg
    refine ⟨fun h0 hw => ?_, fun h0 hw => ?_⟩
    · exact (hdt fun hm => (dt_mem_footprint.1 hm).elim fun x hx => hw x (hx ▸ hi)).trans h0
    · exact (hst fun hm => (st_mem_footprint.1 hm).elim fun x hx => hw x (hx ▸ hi)).trans h0
  · cases h
    exact .of_eq rfl rfl
  · cases h
    exact absurd rfl hg

theorem cycle_zeroTimersStay {k : Word} (h : cycle k s = .next t) (hg : t.rs ≠ .faulted) :
    ZeroTimersStay s t := by
  rcases cycle_next_cases h with ⟨-, rfl⟩ | ⟨-, u, hu, rfl⟩
  · exact .of_eq rfl rfl
  · rw [State.endCycle_rs] at hg
    obtain ⟨hd, hs⟩ := u.endCycle_zero
    exact (executeWord_zeroTimersStay hu hg).trans_zero hd hs

theorem step_zeroTimersStay (h : step s = .next t) (hg : t.rs ≠ .faulted)
    (hp : ∀ l rest, s.ports ≠ .reset l :: rest) : ZeroTimersStay s t := by
  cases step_next_cases h with
  | reset l rest hr => exact absurd hr (hp l rest)
  | tick es n _ _ ht =>
    subst ht
    exact .of_zero (congrArg decTimer) (congrArg decTimer)
  | cycle k es n _ hc =>
    have hstay : ZeroTimersStay (s.withEnv es n) t := cycle_zeroTimersStay hc hg
    exact hstay
  | load _ _ _ _ ht | start _ _ _ ht | noEffect _ _ _ _ ht | idle _ _ ht => subst ht; exact .of_eq rfl rfl

/-- Settles O15: a timer step by the equation of one decrement, and a step by its cases: only a tick and the end of a
cycle decrement, and execution writes a timer only where the footprint of the decoded instruction names it. -/
theorem timersClampAtZero : Obligations.TimersClampAtZero := by
  refine ⟨fun s => ⟨s.timerStep_keepsBut, ?_, ?_, ?_, ?_⟩, fun s t h hg hp => step_zeroTimersStay h hg hp⟩
  · exact fun _ => decTimer_toNat s.dt
  · exact fun h => congrArg decTimer h
  · exact fun _ => decTimer_toNat s.st
  · exact fun h => congrArg decTimer h

end Sys2Proof.Machine
end

section
/-! O14, O16: the two bytes of a fetched word, and what a load event does to a loaded machine (20_memory.md R53,
R56). -/

namespace Sys2Proof

/-! ### The word of two bytes -/

theorem wordOfBytes_toNat (hi lo : Byte) : (wordOfBytes hi lo).toNat = hi.toNat * 256 + lo.toNat := by
  rw [wordOfBytes, BitVec.toNat_append, ← Nat.shiftLeft_add_eq_or_of_lt lo.isLt, Nat.shiftLeft_eq]

theorem wordOfBytes_high (hi lo : Byte) : (wordOfBytes hi lo).extractLsb' 8 8 = hi :=
  BitVec.extractLsb'_append_eq_left

theorem wordOfBytes_low (hi lo : Byte) : (wordOfBytes hi lo).extractLsb' 0 8 = lo :=
  BitVec.extractLsb'_append_eq_right

namespace Machine

/-- Settles O14: the fetched word is the word of the two bytes, the one at the lower address first. -/
theorem fetchIsBigEndian : Obligations.FetchIsBigEndian := fun _ _ =>
  ⟨wordOfBytes_toNat _ _, wordOfBytes_high _ _, wordOfBytes_low _ _⟩

/-! ### A load event -/

theorem step_load {s : State} {bytes : List Byte} {rest : List PortEvent} (hr : s.rs = .loaded)
    (hp : s.ports = .load bytes :: rest) :
    step s = .next ((s.setPorts rest).setMem (s.mem.loadAt loadBase bytes)) := by
  simp [step, stepOnce, hp, portStep, hr]

/-- Any write of memory keeps every other piece. -/
theorem KeepsBut.setMem (s : State) (m : Memory) : KeepsBut [.mem] s (s.setMem m) := by
  simp [KeepsBut]

/-- Settles O16: the step stores the loaded memory and nothing else, and byte k of an image loaded at 0x200 is at
0x200 + k up to address 0xFFF. -/
theorem loadCopiesTheImage : Obligations.LoadCopiesTheImage := by
  intro s bytes rest hm hr hp
  have hcanon : s.mem.Canon := Memory.wf_iff_canon.1 hm
  refine ⟨_, step_load hr hp, .setMem _ _, fun a => ?_⟩
  have hbound : a < memSize ↔ a ≤ 0xFFF := Nat.lt_succ_iff
  simp only [State.setMem_mem, Memory.read_loadAt hcanon, loadBase, hbound]

end Machine

end Sys2Proof
end

section
/-! O19, O21: the jump and the two skips on an immediate (41_control.md R101, R106, R107). -/

namespace Sys2Proof.Machine

variable {s : State}

/-! ### Rows compared by the Indicator alone -/

/-- To decode a row of mask F000 it is enough to decode the words of its Indicator. -/
theorem DecodesAs.of_ind {m : Word} {f : Word → Instr}
    (h : ∀ strict w, fieldInd w = fieldInd m → decodeWord strict w = .instr (f w)) : DecodesAs 0xF000 m f :=
  fun strict w hw => h strict w (ind_of_and_F000 hw)

theorem decodeWord_ind1 (strict : Bool) {w : Word} (h : fieldInd w = 0x1) :
    decodeWord strict w = .instr (.jp (fieldNNN w)) := by
  simp [decodeWord, h]

theorem decodeWord_ind3 (strict : Bool) {w : Word} (h : fieldInd w = 0x3) :
    decodeWord strict w = .instr (.seByte (fieldX w) (fieldNN w)) := by
  simp [decodeWord, h]

theorem decodeWord_ind4 (strict : Bool) {w : Word} (h : fieldInd w = 0x4) :
    decodeWord strict w = .instr (.sneByte (fieldX w) (fieldNN w)) := by
  simp [decodeWord, h]

/-! ### What a control transfer does to PC -/

/-- Any write of PC keeps every other piece. -/
theorem KeepsBut.setPC (w : Word) : KeepsBut [.pc] s (s.setPC w) := by
  simp [KeepsBut]

theorem zext16_toNat (a : Addr) : (zext16 a).toNat = a.toNat :=
  BitVec.toNat_setWidth_of_le (by decide)

theorem State.skipIf_pc_of {c : Prop} [Decidable c] (h : c) : (s.skipIf c).pc = s.pc + 2 := by
  rw [State.skipIf_eq, State.setPC_pc, if_pos h]

theorem State.skipIf_pc_of_not {c : Prop} [Decidable c] (h : ¬c) : (s.skipIf c).pc = s.pc := by
  rw [State.skipIf_eq, State.setPC_pc, if_neg h]

/-- A conditional skip completes, with PC moved past the next word exactly where the condition holds. -/
theorem completes_skipIf (c : Prop) [Decidable c] :
    Completes s (.next (s.skipIf c)) [.pc] fun t => (c → t.pc = s.pc + 2) ∧ (¬c → t.pc = s.pc) :=
  ⟨_, rfl, .skipIf c, State.skipIf_pc_of, State.skipIf_pc_of_not⟩

/-- Settles O19: Indicator 1 is the jump under both values of DECODE_STRICT, and the jump is one write of PC. -/
theorem jumpSetsPc : Obligations.JumpSetsPc :=
  ⟨.of_ind fun strict _ => decodeWord_ind1 strict, fun nnn _ => ⟨_, rfl, .setPC _, zext16_toNat nnn⟩⟩

/-- Settles O21: Indicators 3 and 4 are the two skips, and each is a conditional skip, on VX = NN and on its
negation. -/
theorem skipOnImmediate : Obligations.SkipOnImmediate := by
  refine ⟨.of_ind fun strict _ => decodeWord_ind3 strict, .of_ind fun strict _ => decodeWord_ind4 strict,
    fun x nn s => ⟨completes_skipIf (s.readV x = nn), ?_⟩⟩
  obtain ⟨t, he, hk, hskip, hstay⟩ := completes_skipIf (s := s) (s.readV x ≠ nn)
  exact ⟨t, he, hk, hskip, fun h => hstay (not_not_intro h)⟩

end Sys2Proof.Machine
end

section
/-! O26, O27, O28: the load, addition and copy that write VX and no flag (42_alu.md R123, R124, R125). -/

namespace Sys2Proof.Machine

variable {s : State}

/-! ### Indicators 6 and 7, and the rows of Indicator 8 -/

theorem decodeWord_ind6 (strict : Bool) {w : Word} (h : fieldInd w = 0x6) :
    decodeWord strict w = .instr (.ldByte (fieldX w) (fieldNN w)) := by
  simp [decodeWord, h]

theorem decodeWord_ind7 (strict : Bool) {w : Word} (h : fieldInd w = 0x7) :
    decodeWord strict w = .instr (.addByte (fieldX w) (fieldNN w)) := by
  simp [decodeWord, h]

theorem decodeWord_ind8 (strict : Bool) {w : Word} (h : fieldInd w = 0x8) : decodeWord strict w = decode8 w := by
  simp [decodeWord, h]

/-- To decode a row 8XYN it is enough to run the family's decoder on the words with its N. -/
theorem DecodesAs.of_ind8 {m : Word} {f : Word → Instr} (hm : fieldInd m = 0x8)
    (h : ∀ w, fieldN w = fieldN m → decode8 w = .instr (f w)) : DecodesAs 0xF00F m f :=
  fun strict w hw =>
    (decodeWord_ind8 strict ((ind_of_and_F00F hw).trans hm)).trans (h w (n_of_and_F00F hw))

theorem decode8_n0 {w : Word} (h : fieldN w = 0x0) : decode8 w = .instr (.ldReg (fieldX w) (fieldY w)) := by
  simp [decode8, h]

/-! ### What one register write does -/

/-- One write of VX completes, with the byte in VX and every other register as it was, VF among them. -/
theorem completes_writeV (x : Nibble) (b : Byte) :
    Completes s (.next (s.writeV x b)) [.v] fun t => t.readV x = b ∧ ∀ z, z ≠ x → t.readV z = s.readV z :=
  ⟨_, rfl, .of_v _, s.readV_writeV_same x b, fun _ hz => s.readV_writeV_other b hz⟩

/-- Settles O26: Indicator 6 is the load, and the load is one write of VX. -/
theorem loadImmediateSetsVx : Obligations.LoadImmediateSetsVx :=
  ⟨.of_ind fun strict _ => decodeWord_ind6 strict, fun x nn _ => completes_writeV x nn⟩

/-- Settles O27: Indicator 7 is the addition, and the addition is one write of VX, of a byte sum, which is the sum
modulo 256. -/
theorem addImmediateWritesNoFlag : Obligations.AddImmediateWritesNoFlag := by
  refine ⟨.of_ind fun strict _ => decodeWord_ind7 strict, fun x nn s => ?_⟩
  obtain ⟨t, he, hk, hx, hother⟩ := completes_writeV (s := s) x (s.readV x + nn)
  exact ⟨t, he, hk, hx ▸ BitVec.toNat_add _ _, hother⟩

/-- Settles O28: the row of Indicator 8 with N = 0 is the copy, and the copy is one write of VX. -/
theorem copyRegister : Obligations.CopyRegister :=
  ⟨.of_ind8 rfl fun _ => decode8_n0, fun x y s => completes_writeV x (s.readV y)⟩

end Sys2Proof.Machine
end

section
/-! O33: the load of the index register (43_index_memory.md R140). -/

namespace Sys2Proof.Machine

variable {s : State}

theorem decodeWord_indA (strict : Bool) {w : Word} (h : fieldInd w = 0xA) :
    decodeWord strict w = .instr (.ldI (fieldNNN w)) := by
  simp [decodeWord, h]

/-- Any write of I keeps every other piece. -/
theorem KeepsBut.setI (w : Word) : KeepsBut [.i] s (s.setI w) := by
  simp [KeepsBut]

/-- Settles O33: Indicator A is the load under both values of DECODE_STRICT, and the load is one write of I, of NNN
zero-extended. -/
theorem loadIndex : Obligations.LoadIndex :=
  ⟨.of_ind fun strict _ => decodeWord_indA strict, fun nnn _ => ⟨_, rfl, .setI _, zext16_toNat nnn⟩⟩

end Sys2Proof.Machine
end

section
/-! O1 to O5: the decoder as the opcode map, and the encoder as its inverse (30_encoding.md R70 to R80). -/

namespace Sys2Proof

open Machine

/-! ### The instruction of a row -/

/-- The instruction of the same row as `i` with the operands of the word `w`. -/
def Instr.withFieldsOf (w : Word) : Instr → Instr
  | .cls _ => .cls (fieldX w)
  | .ret _ => .ret (fieldX w)
  | .jp _ => .jp (fieldNNN w)
  | .call _ => .call (fieldNNN w)
  | .seByte _ _ => .seByte (fieldX w) (fieldNN w)
  | .sneByte _ _ => .sneByte (fieldX w) (fieldNN w)
  | .seReg _ _ _ => .seReg (fieldX w) (fieldY w) (fieldN w)
  | .ldByte _ _ => .ldByte (fieldX w) (fieldNN w)
  | .addByte _ _ => .addByte (fieldX w) (fieldNN w)
  | .ldReg _ _ => .ldReg (fieldX w) (fieldY w)
  | .orReg _ _ => .orReg (fieldX w) (fieldY w)
  | .andReg _ _ => .andReg (fieldX w) (fieldY w)
  | .xorReg _ _ => .xorReg (fieldX w) (fieldY w)
  | .addReg _ _ => .addReg (fieldX w) (fieldY w)
  | .subReg _ _ => .subReg (fieldX w) (fieldY w)
  | .shr _ _ => .shr (fieldX w) (fieldY w)
  | .subnReg _ _ => .subnReg (fieldX w) (fieldY w)
  | .shl _ _ => .shl (fieldX w) (fieldY w)
  | .sneReg _ _ _ => .sneReg (fieldX w) (fieldY w) (fieldN w)
  | .ldI _ => .ldI (fieldNNN w)
  | .jpV0 _ => .jpV0 (fieldNNN w)
  | .drw _ _ _ => .drw (fieldX w) (fieldY w) (fieldN w)
  | .skp _ => .skp (fieldX w)
  | .sknp _ => .sknp (fieldX w)
  | .ldVxDT _ => .ldVxDT (fieldX w)
  | .ldVxK _ => .ldVxK (fieldX w)
  | .ldDTVx _ => .ldDTVx (fieldX w)
  | .ldSTVx _ => .ldSTVx (fieldX w)
  | .addI _ => .addI (fieldX w)
  | .ldB _ => .ldB (fieldX w)
  | .storeRegs _ => .storeRegs (fieldX w)
  | .loadRegs _ => .loadRegs (fieldX w)

theorem rowMatch_withFieldsOf (w : Word) (i : Instr) : rowMatch (i.withFieldsOf w) = rowMatch i := by
  cases i <;> rfl

/-- The operands of an instruction are the fields of its word. -/
theorem Instr.withFieldsOf_encode (i : Instr) : i.withFieldsOf (encode i) = i := by
  cases i <;> simp [Instr.withFieldsOf, encode]

theorem word_of_and_FFFF {w m : Word} (h : w &&& 0xFFFF = m) : w = m :=
  BitVec.and_allOnes.symm.trans h

/-- The decoder answers the instruction of every row that matches the word. -/
theorem decodeWord_of_row {strict : Bool} {w : Word} (j : Instr) (h : w &&& rowMask strict j = rowMatch j) :
    decodeWord strict w = .instr (j.withFieldsOf w) := by
  cases j with
  | jp | call | seByte | sneByte | ldByte | addByte | ldI | jpV0 | drw =>
    have hi := ind_of_and_F000 h
    simp only [fieldInd, rowMatch] at hi
    simp [decodeWord, fieldInd, hi, Instr.withFieldsOf]
  | ldReg | orReg | andReg | xorReg | addReg | subReg | shr | subnReg | shl =>
    have hi := ind_of_and_F00F h
    have hn := n_of_and_F00F h
    simp only [fieldInd, fieldN, rowMatch] at hi hn
    simp [decodeWord, decode8, fieldInd, fieldN, hi, hn, Instr.withFieldsOf]
  | skp | sknp | ldVxDT | ldVxK | ldDTVx | ldSTVx | addI | ldB | storeRegs | loadRegs =>
    have hi := ind_of_and_F0FF h
    have hn := nn_of_and_F0FF h
    simp only [fieldInd, fieldNN, rowMatch] at hi hn
    simp [decodeWord, decodeE, decodeF, fieldInd, fieldNN, hi, hn, Instr.withFieldsOf]
  | seReg | sneReg =>
    cases strict
    · have hi := ind_of_and_F000 h
      simp only [fieldInd, rowMatch] at hi
      simp [decodeWord, decode5, decode9, fieldInd, hi, Instr.withFieldsOf]
    · have hi := ind_of_and_F00F h
      have hn := n_of_and_F00F h
      simp only [fieldInd, fieldN, rowMatch] at hi hn
      simp [decodeWord, decode5, decode9, fieldInd, fieldN, hi, hn, Instr.withFieldsOf]
  | cls | ret =>
    cases strict
    · have hi := ind_of_and_F0FF h
      have hn := nn_of_and_F0FF h
      simp only [fieldInd, fieldNN, rowMatch] at hi hn
      simp [decodeWord, decode0, fieldInd, fieldNN, hi, hn, Instr.withFieldsOf]
    · rw [word_of_and_FFFF h]
      simp [decodeWord, decode0, fieldInd, fieldX, fieldNN, rowMatch, Instr.withFieldsOf]

open Laws in
/-- The word of a well-formed instruction matches the instruction's row: the family EncodingRow in one statement. -/
theorem encode_matches_row : ∀ i : Instr, EncodingRow.Statement i
  | .cls x => EncodingRow.cls x
  | .ret x => EncodingRow.ret x
  | .jp nnn => EncodingRow.jp nnn
  | .call nnn => EncodingRow.call nnn
  | .seByte x nn => EncodingRow.seByte x nn
  | .sneByte x nn => EncodingRow.sneByte x nn
  | .seReg x y n => EncodingRow.seReg x y n
  | .ldByte x nn => EncodingRow.ldByte x nn
  | .addByte x nn => EncodingRow.addByte x nn
  | .ldReg x y => EncodingRow.ldReg x y
  | .orReg x y => EncodingRow.orReg x y
  | .andReg x y => EncodingRow.andReg x y
  | .xorReg x y => EncodingRow.xorReg x y
  | .addReg x y => EncodingRow.addReg x y
  | .subReg x y => EncodingRow.subReg x y
  | .shr x y => EncodingRow.shr x y
  | .subnReg x y => EncodingRow.subnReg x y
  | .shl x y => EncodingRow.shl x y
  | .sneReg x y n => EncodingRow.sneReg x y n
  | .ldI nnn => EncodingRow.ldI nnn
  | .jpV0 nnn => EncodingRow.jpV0 nnn
  | .drw x y n => EncodingRow.drw x y n
  | .skp x => EncodingRow.skp x
  | .sknp x => EncodingRow.sknp x
  | .ldVxDT x => EncodingRow.ldVxDT x
  | .ldVxK x => EncodingRow.ldVxK x
  | .ldDTVx x => EncodingRow.ldDTVx x
  | .ldSTVx x => EncodingRow.ldSTVx x
  | .addI x => EncodingRow.addI x
  | .ldB x => EncodingRow.ldB x
  | .storeRegs x => EncodingRow.storeRegs x
  | .loadRegs x => EncodingRow.loadRegs x

/-- Settles O1: the word of a well-formed instruction matches its row, so it decodes as the instruction of that row
with the fields of the word as operands, which are the operands encoded. -/
theorem decodeOfEncodedInstruction : Obligations.DecodeOfEncodedInstruction := by
  intro strict i hwf
  rw [decodeWord_of_row i (encode_matches_row i strict hwf), i.withFieldsOf_encode]

/-! ### The word of a decoded instruction -/

/-- An instruction answered for the word `w` is well-formed and encodes to `w`. -/
def EncodesBack (strict : Bool) (w : Word) (d : Decoded) : Prop :=
  ∀ i, d = .instr i → encode i = w ∧ i.wellFormed strict = true

section
variable {strict : Bool} {w : Word}

theorem EncodesBack.instr {i : Instr} (he : encode i = w) (hwf : i.wellFormed strict = true) :
    EncodesBack strict w (.instr i) := by
  rintro _ ⟨⟩
  exact ⟨he, hwf⟩

theorem EncodesBack.unmatched : EncodesBack strict w (.unmatched w) := nofun

theorem EncodesBack.ite {c : Prop} [Decidable c] {d e : Decoded} (hd : c → EncodesBack strict w d)
    (he : ¬c → EncodesBack strict w e) : EncodesBack strict w (if c then d else e) := by
  split
  · exact hd ‹_›
  · exact he ‹_›

theorem word_eq_nnn {a : Nibble} (h : fieldInd w = a) : a ++ fieldNNN w = w := by
  rw [← h, word_of_nnn]

theorem word_eq_xnn {a : Nibble} {c : Byte} (h : fieldInd w = a) (hn : fieldNN w = c) : a ++ fieldX w ++ c = w := by
  rw [← h, ← hn, word_of_xnn]

theorem word_eq_xyn {a d : Nibble} (h : fieldInd w = a) (hn : fieldN w = d) :
    a ++ fieldX w ++ fieldY w ++ d = w := by
  rw [← h, ← hn, word_of_xyn]

theorem decode0_encodesBack (h : fieldInd w = 0) : EncodesBack strict w (decode0 strict w) := by
  refine .ite (fun _ => .unmatched) fun hx => ?_
  have hwf : (!strict || fieldX w == 0) = true := by cases strict <;> simp_all
  exact .ite (fun hn => .instr (word_eq_xnn h hn) hwf) fun _ =>
    .ite (fun hn => .instr (word_eq_xnn h hn) hwf) fun _ => .unmatched

theorem decode5_encodesBack (h : fieldInd w = 5) : EncodesBack strict w (decode5 strict w) :=
  .ite (fun _ => .unmatched) fun hn =>
    .instr (word_eq_xyn h rfl) (by cases strict <;> simp_all [Instr.wellFormed])

theorem decode9_encodesBack (h : fieldInd w = 9) : EncodesBack strict w (decode9 strict w) :=
  .ite (fun _ => .unmatched) fun hn =>
    .instr (word_eq_xyn h rfl) (by cases strict <;> simp_all [Instr.wellFormed])

theorem decode8_encodesBack (h : fieldInd w = 8) : EncodesBack strict w (decode8 w) := by
  unfold decode8
  dsimp only
  repeat' refine .ite (fun hn => .instr (word_eq_xyn h hn) rfl) fun _ => ?_
  exact .unmatched

theorem decodeE_encodesBack (h : fieldInd w = 0xE) : EncodesBack strict w (decodeE w) := by
  unfold decodeE
  repeat' refine .ite (fun hn => .instr (word_eq_xnn h hn) rfl) fun _ => ?_
  exact .unmatched

theorem decodeF_encodesBack (h : fieldInd w = 0xF) : EncodesBack strict w (decodeF w) := by
  unfold decodeF
  dsimp only
  repeat' refine .ite (fun hn => .instr (word_eq_xnn h hn) rfl) fun _ => ?_
  exact .unmatched

/-- The decoder's dispatch on the Indicator, one family after the other. -/
theorem decodeWord_encodesBack (strict : Bool) (w : Word) : EncodesBack strict w (decodeWord strict w) := by
  unfold decodeWord
  refine .ite decode0_encodesBack fun _ => ?_
  refine .ite (fun h => .instr (word_eq_nnn h) rfl) fun _ => ?_
  refine .ite (fun h => .instr (word_eq_nnn h) rfl) fun _ => ?_
  refine .ite (fun h => .instr (word_eq_xnn h rfl) rfl) fun _ => ?_
  refine .ite (fun h => .instr (word_eq_xnn h rfl) rfl) fun _ => ?_
  refine .ite decode5_encodesBack fun _ => ?_
  refine .ite (fun h => .instr (word_eq_xnn h rfl) rfl) fun _ => ?_
  refine .ite (fun h => .instr (word_eq_xnn h rfl) rfl) fun _ => ?_
  refine .ite decode8_encodesBack fun _ => ?_
  refine .ite decode9_encodesBack fun _ => ?_
  refine .ite (fun h => .instr (word_eq_nnn h) rfl) fun _ => ?_
  refine .ite (fun h => .instr (word_eq_nnn h) rfl) fun _ => ?_
  refine .ite (fun h => .instr (word_eq_xyn h rfl) rfl) fun _ => ?_
  refine .ite decodeE_encodesBack fun _ => ?_
  exact .ite decodeF_encodesBack fun _ => .unmatched

end

/-- Settles O2: every branch of the decoder that answers an instruction has compared the bits that the instruction
does not keep as operands. -/
theorem encodeOfDecodedWord : Obligations.EncodeOfDecodedWord := decodeWord_encodesBack

/-! ### The opcode map -/

/-- A decoded word matches the row of its instruction. -/
theorem decoded_matches_row {strict : Bool} {w : Word} {i : Instr} (h : decodeWord strict w = .instr i) :
    w &&& rowMask strict i = rowMatch i := by
  obtain ⟨he, hwf⟩ := decodeWord_encodesBack strict w i h
  rw [← he, encode_matches_row i strict hwf]

/-- Settles O3: a decoded word matches the row of its instruction, and a word that matches a row decodes as an
instruction of that row, so it matches no other and is never handed back. -/
theorem decoderFollowsOpcodeMap : Obligations.DecoderFollowsOpcodeMap := by
  intro strict w
  rcases decodeWord_cases strict w with ⟨i, hi⟩ | hu
  · refine .inl ⟨i, hi, decoded_matches_row hi, fun j hj => ?_⟩
    have hij : i = j.withFieldsOf w := Decoded.instr.inj (hi.symm.trans (decodeWord_of_row j hj))
    rw [hij, rowMatch_withFieldsOf]
  · exact .inr ⟨hu, fun j hj => Decoded.noConfusion (hu.symm.trans (decodeWord_of_row j hj))⟩

end Sys2Proof
end

section
/-! O4, O5: the unmatched words (30_encoding.md R77, R78). -/

namespace Sys2Proof

open Machine

section
variable {w : Word}

theorem decode8_eq_unmatched : decode8 w = .unmatched w ↔ fieldN w ∈ [0x8, 0x9, 0xA, 0xB, 0xC, 0xD, 0xF] := by
  have key : ∀ n : Nibble, n ∈ [0x8, 0x9, 0xA, 0xB, 0xC, 0xD, 0xF] ↔
      n ≠ 0 ∧ n ≠ 1 ∧ n ≠ 2 ∧ n ≠ 3 ∧ n ≠ 4 ∧ n ≠ 5 ∧ n ≠ 6 ∧ n ≠ 7 ∧ n ≠ 0xE := by decide
  rw [key]
  clear key
  simp only [decode8]
  split_ifs <;> simp_all

theorem decodeE_eq_unmatched : decodeE w = .unmatched w ↔ fieldNN w ∉ [0x9E, 0xA1] := by
  simp only [decodeE]
  split_ifs <;> simp_all

theorem decodeF_eq_unmatched :
    decodeF w = .unmatched w ↔ fieldNN w ∉ [0x07, 0x0A, 0x15, 0x18, 0x1E, 0x33, 0x55, 0x65] := by
  simp only [decodeF]
  split_ifs <;> simp_all

theorem decode5_eq_unmatched {strict : Bool} :
    decode5 strict w = .unmatched w ↔ strict = true ∧ fieldN w ≠ 0 := by
  simp only [decode5]
  split_ifs <;> simp_all

theorem decode9_eq_unmatched {strict : Bool} :
    decode9 strict w = .unmatched w ↔ strict = true ∧ fieldN w ≠ 0 := by
  simp only [decode9]
  split_ifs <;> simp_all

theorem decode0_eq_unmatched {strict : Bool} :
    decode0 strict w = .unmatched w ↔ (strict = true ∧ fieldX w ≠ 0) ∨ fieldNN w ∉ [0xE0, 0xEE] := by
  simp only [decode0]
  split_ifs <;> simp_all

theorem nibble_cases : ∀ a : Nibble, a = 0x0 ∨ a = 0x1 ∨ a = 0x2 ∨ a = 0x3 ∨ a = 0x4 ∨ a = 0x5 ∨ a = 0x6 ∨ a = 0x7 ∨
    a = 0x8 ∨ a = 0x9 ∨ a = 0xA ∨ a = 0xB ∨ a = 0xC ∨ a = 0xD ∨ a = 0xE ∨ a = 0xF := by decide

/-- The unmatched words, family by family: no word of an Indicator with a row compared by the Indicator alone, all
words of Indicator C, and of the other Indicators those their families do not list. -/
theorem decodeWord_eq_unmatched {strict : Bool} :
    decodeWord strict w = .unmatched w ↔
      (fieldInd w = 0 ∧ decode0 strict w = .unmatched w) ∨
      (fieldInd w = 0x5 ∧ decode5 strict w = .unmatched w) ∨
      (fieldInd w = 0x9 ∧ decode9 strict w = .unmatched w) ∨
      (fieldInd w = 0x8 ∧ decode8 w = .unmatched w) ∨
      fieldInd w = 0xC ∨
      (fieldInd w = 0xE ∧ decodeE w = .unmatched w) ∨
      (fieldInd w = 0xF ∧ decodeF w = .unmatched w) := by
  rcases nibble_cases (fieldInd w) with h | h | h | h | h | h | h | h | h | h | h | h | h | h | h | h <;>
    simp [decodeWord, h]

/-- The words 00E0 and 00EE are those of Indicator 0 with X = 0 and NN = E0 or EE. -/
theorem ind0_eq_iff (h : fieldInd w = 0) (c : Byte) : w = 0x0#4 ++ 0x0#4 ++ c ↔ fieldX w = 0 ∧ fieldNN w = c := by
  constructor
  · rintro rfl
    exact ⟨fieldX_xnn .., fieldNN_xnn ..⟩
  · rintro ⟨hx, hn⟩
    have hw := word_eq_xnn h hn
    rw [hx] at hw
    exact hw.symm

theorem ind0_strict_unmatched (h : fieldInd w = 0) :
    decode0 true w = .unmatched w ↔ w ≠ 0x00E0 ∧ w ≠ 0x00EE := by
  have hcls : w = 0x00E0 ↔ _ := ind0_eq_iff h 0xE0
  have hret : w = 0x00EE ↔ _ := ind0_eq_iff h 0xEE
  simp only [decode0_eq_unmatched, ne_eq, hcls, hret, List.mem_cons, List.not_mem_nil, or_false, true_and]
  tauto

end

/-- Settles O4: family by family, with the words 00E0 and 00EE put together from their fields. -/
theorem unmatchedSpaceIsTheListedClasses : Obligations.UnmatchedSpaceIsTheListedClasses := by
  constructor <;> intro w <;> rw [decodeWord_eq_unmatched]
  · simp only [decode5_eq_unmatched, decode9_eq_unmatched, decode8_eq_unmatched, decodeE_eq_unmatched,
      decodeF_eq_unmatched, true_and, and_congr_right_iff.2 (ind0_strict_unmatched (w := w))]
  · simp only [decode0_eq_unmatched, decode5_eq_unmatched, decode9_eq_unmatched, decode8_eq_unmatched,
      decodeE_eq_unmatched, decodeF_eq_unmatched, Bool.false_eq_true, false_and, and_false, false_or]

/-- Settles O5: the decoder evaluated on each of the listed words. -/
theorem wordsOfTheSpecDecode : Obligations.WordsOfTheSpecDecode := by
  unfold Obligations.WordsOfTheSpecDecode
  decide

end Sys2Proof
end

section
/-! O8, O9, O10, O18: the invariants of a run, through execution, a cycle and a step (20_memory.md R50, 10_state.md R26,
R38, 60_exceptions.md R170, R175). -/

namespace Sys2Proof.Machine

variable {s t : State}

theorem KeepsBut.refl (ps : List Piece) (s : State) : KeepsBut ps s s := by
  simp [KeepsBut]

/-! ### What an instruction does to the run state and to memory's form -/

/-- `t` is good as an outcome of executing in `s`: RS is kept, and so is the canonical form of memory. -/
def GoodOutcome (s t : State) : Prop := t.rs = s.rs ∧ (s.mem.Canon → t.mem.Canon)

theorem GoodOutcome.of_eq (hr : t.rs = s.rs) (hm : t.mem = s.mem) : GoodOutcome s t := ⟨hr, fun hc => hm ▸ hc⟩

/-- `t` is the entry into a fault raised in `s`. -/
def Raised (s t : State) : Prop := ∃ k info w, t = s.raiseFault k info w

theorem skipIf_goodOutcome (c : Prop) [Decidable c] : GoodOutcome s (s.skipIf c) := by
  rw [State.skipIf_eq]
  exact .of_eq rfl rfl

theorem writeResultFlag_goodOutcome (x : Nibble) (r f : Byte) : GoodOutcome s (s.writeResultFlag x r f) := by
  obtain ⟨v, he⟩ := s.writeResultFlag_frame x r f
  rw [he]
  exact .of_eq rfl rfl

theorem withBytesAtI_raised_or_good (n : Nat) (i : Instr)
    (h : n = 0 ∨ s.i.toNat + n ≤ memSize → GoodOutcome s t) :
    Raised s (s.withBytesAtI n i t) ∨ GoodOutcome s (s.withBytesAtI n i t) := by
  by_cases hb : n = 0 ∨ s.i.toNat + n ≤ memSize
  · rw [State.withBytesAtI_inBounds hb]
    exact .inr (h hb)
  · rw [State.withBytesAtI_out (by omega) (by omega)]
    exact .inl ⟨_, _, _, rfl⟩

theorem withKey_raised_or_good (x : Nibble) (i : Instr) {e : Bool → State} (h : ∀ b, GoodOutcome s (e b)) :
    Raised s (s.withKey x i e) ∨ GoodOutcome s (s.withKey x i e) := by
  rcases s.withKey_cases x i e with ⟨b, he⟩ | hf
  · exact .inr (he ▸ h b)
  · exact .inl hf

/-- A block write inside memory. -/
theorem setMem_writeBytes_goodOutcome {xs : List Byte} (h : xs.length = 0 ∨ s.i.toNat + xs.length ≤ memSize) :
    GoodOutcome s (s.setMem (s.mem.writeBytes (s.operandAddr 0) xs)) := by
  refine ⟨rfl, fun hc => ?_⟩
  rcases h with h | h
  · rw [List.eq_nil_of_length_eq_zero h]
    exact hc
  · exact hc.writeBytes h

/-- An instruction raises a fault, or keeps RS and the canonical form of memory. -/
theorem exec_raised_or_good {i : Instr} (h : exec i s = .next t) : Raised s t ∨ GoodOutcome s t := by
  cases i with
  | seByte | sneByte | seReg | sneReg => cases h; exact .inr (skipIf_goodOutcome _)
  | addReg | subReg | shr | subnReg | shl => cases h; exact .inr (writeResultFlag_goodOutcome _ _ _)
  | ret x =>
    cases h
    split
    · exact .inr (.of_eq rfl rfl)
    · exact .inl ⟨_, _, _, rfl⟩
  | call nnn =>
    cases h
    split
    · exact .inr (.of_eq rfl rfl)
    · exact .inl ⟨_, _, _, rfl⟩
  | drw x y n => cases h; exact withBytesAtI_raised_or_good _ _ fun _ => .of_eq rfl rfl
  | ldB x => cases h; exact withBytesAtI_raised_or_good _ _ fun hb => setMem_writeBytes_goodOutcome hb
  | storeRegs x =>
    cases h
    exact withBytesAtI_raised_or_good _ _ fun hb => setMem_writeBytes_goodOutcome (by rwa [State.firstRegs_length])
  | loadRegs x =>
    cases h
    obtain ⟨-, v, he⟩ := s.loadFirstRegs_spec (x.toNat + 1) (by omega)
    exact withBytesAtI_raised_or_good _ _ fun _ => he ▸ .of_eq rfl rfl
  | skp | sknp => cases h; exact withKey_raised_or_good _ _ fun _ => skipIf_goodOutcome _
  | ldVxK x =>
    cases h
    cases s.firstHeld <;> exact .inr (.of_eq rfl rfl)
  | cls | jp | jpV0 | ldByte | addByte | ldReg | orReg | andReg | xorReg | ldI | addI | ldVxDT | ldDTVx | ldSTVx =>
    cases h
    exact .inr (.of_eq rfl rfl)

theorem executeWord_raised_or_good {w : Word} (h : executeWord w s = .next t) : Raised s t ∨ GoodOutcome s t := by
  rcases executeWord_cases w s with ⟨i, -, he⟩ | he | he <;> rw [he] at h
  · exact exec_raised_or_good h
  · cases h
    exact .inr (.of_eq rfl rfl)
  · cases h
    exact .inl ⟨_, _, _, rfl⟩

/-! ### Memory stays canonical -/

@[simp] theorem State.endCycle_mem (t : State) : t.endCycle.mem = t.mem := by
  obtain ⟨_, _, _, _, he⟩ := t.endCycle_frame
  rw [he]

theorem cycle_mem_canon {k : Word} (h : cycle k s = .next t) (hc : s.mem.Canon) : t.mem.Canon := by
  rcases cycle_next_cases h with ⟨-, rfl⟩ | ⟨-, u, hu, rfl⟩
  · exact hc
  · rw [State.endCycle_mem]
    rcases executeWord_raised_or_good hu with ⟨k, info, w, rfl⟩ | ⟨-, hm⟩
    · exact (s.fetched _).raiseFault_mem_canon k info w
    · exact hm hc

/-- Settles O8: a reset and a fault make memory afresh in canonical form, a load and the block stores of FX33 and FX55
write inside memory, and nothing else writes it. -/
theorem stepKeepsMemoryCanonical : Obligations.StepKeepsMemoryCanonical := by
  intro s t hm h
  have hc : s.mem.Canon := Memory.wf_iff_canon.1 hm
  refine Memory.wf_iff_canon.2 ?_
  cases step_next_cases h with
  | reset l _ _ ht => subst ht; exact Memory.Canon.ofCells l.mem
  | load bytes _ _ _ ht => subst ht; exact hc.loadAt loadBase bytes
  | cycle k es n _ hcyc => exact cycle_mem_canon hcyc hc
  | start _ _ _ ht | tick _ _ _ _ ht | noEffect _ _ _ _ ht | idle _ _ ht => subst ht; exact hc

/-! ### A record exactly in a faulted state -/

/-- What has neither RS nor FR changed has a record iff faulted as before. -/
theorem State.RecordIffFaulted.of_eq (h : s.RecordIffFaulted) (hr : t.rs = s.rs) (hf : t.fr = s.fr) :
    t.RecordIffFaulted := by
  rwa [State.RecordIffFaulted, hr, hf]

/-- A change of RS between two states that are not faulted brings no record. -/
theorem State.RecordIffFaulted.of_good (h : s.RecordIffFaulted) (hs : s.rs ≠ .faulted) (ht : t.rs ≠ .faulted)
    (hf : t.fr = s.fr) : t.RecordIffFaulted := by
  have hnone : s.fr = none := not_not.1 (mt h.2 hs)
  exact iff_of_false ht (not_not.2 (hf.trans hnone))

theorem Raised.recordIffFaulted (h : Raised s t) : t.RecordIffFaulted := by
  obtain ⟨k, info, w, rfl⟩ := h
  exact iff_of_true rfl (Option.some_ne_none _)

/-- Execution that keeps RS keeps FR. -/
theorem executeWord_fr {w : Word} (h : executeWord w s = .next t) (hg : t.rs ≠ .faulted) : t.fr = s.fr := by
  rcases executeWord_cases w s with ⟨i, -, he⟩ | he | he <;> rw [he] at h
  · obtain ⟨-, -, -, -, -, -, -, -, -, -, hfr, -⟩ := exec_keepsBut_footprint h hg
    exact hfr (by cases i <;> simp [Instr.footprint])
  · cases h
    rfl
  · cases h
    exact absurd rfl hg

@[simp] theorem State.endCycle_fr (t : State) : t.endCycle.fr = t.fr := by
  obtain ⟨_, _, _, _, he⟩ := t.endCycle_frame
  rw [he]

theorem cycle_recordIffFaulted {k : Word} (h : cycle k s = .next t) (hr : s.rs = .running)
    (hi : s.RecordIffFaulted) : t.RecordIffFaulted := by
  have hs : s.rs ≠ .faulted := hr ▸ nofun
  rcases cycle_next_cases h with ⟨-, rfl⟩ | ⟨-, u, hu, rfl⟩
  · exact hi.of_good hs nofun rfl
  · suffices hu' : u.RecordIffFaulted from hu'.of_eq u.endCycle_rs u.endCycle_fr
    rcases executeWord_raised_or_good hu with hf | ⟨hrs, -⟩
    · exact hf.recordIffFaulted
    · have hg : u.rs ≠ .faulted := hrs ▸ hs
      exact hi.of_good hs hg ((executeWord_fr hu hg).trans rfl)

/-- Settles O9: a fault sets RS and FR together, a reset clears both, and no other step writes FR or leaves or enters
the faulted state. -/
theorem stepKeepsRecordIffFaulted : Obligations.StepKeepsRecordIffFaulted := by
  intro s t hi h
  cases step_next_cases h with
  | reset l _ _ ht => subst ht; exact iff_of_false nofun (not_not.2 rfl)
  | start _ _ hr ht => subst ht; exact hi.of_good (hr ▸ nofun) nofun rfl
  | cycle k es n hr hc => exact cycle_recordIffFaulted hc hr hi
  | load _ _ _ _ ht | tick _ _ _ _ ht | noEffect _ _ _ _ ht | idle _ _ ht => subst ht; exact hi

/-! ### PC stays in range -/

/-- Every occupied stack slot holds at most the highest address of a next word. -/
def State.StackInRange (s : State) : Prop := ∀ k : Fin 16, k.val < s.sp.val → s.stack[k].toNat ≤ 0x1000

theorem State.StackInRange.of_eq (h : s.StackInRange) (hk : t.stack = s.stack) (hp : t.sp = s.sp) :
    t.StackInRange := by
  unfold State.StackInRange
  rw [hk, hp]
  exact h

/-- A push of PC is the only write of a stack slot. -/
theorem exec_stackInRange {i : Instr} (h : exec i s = .next t) (hg : t.rs ≠ .faulted) (hpc : s.pc.toNat ≤ 0x1000)
    (hst : s.StackInRange) : t.StackInRange := by
  obtain ⟨-, -, -, hstack, hsp, -⟩ := exec_keepsBut_footprint h hg
  cases i with
  | ret x =>
    cases h
    by_cases hs : 0 < s.sp.val
    · intro k hk
      simp only [hs, ↓reduceDIte, State.popPC_eq, State.setPC_sp, State.setSP_sp, State.setPC_stack,
        State.setSP_stack] at hk ⊢
      exact hst k (by omega)
    · simp [hs] at hg
  | call nnn =>
    cases h
    by_cases hs : s.sp.val < 16
    · intro k hk
      simp only [hs, ↓reduceDIte, State.push_eq, State.setPC_sp, State.setSP_sp, State.setPC_stack, State.setSP_stack,
        State.setSlot_stack, Fin.getElem_fin, Vector.getElem_set] at hk ⊢
      split
      · exact hpc
      · exact hst k (by omega)
    · simp [hs] at hg
  | _ => exact hst.of_eq (hstack (by simp [Instr.footprint])) (hsp (by simp [Instr.footprint]))

theorem State.skipIf_pc_le (c : Prop) [Decidable c] (hpc : s.pc.toNat ≤ 0x1000) :
    (s.skipIf c).pc.toNat ≤ 0x10FE := by
  rw [State.skipIf_eq, State.setPC_pc]
  split
  · bv_omega
  · omega

theorem zext16_toNat_le (nnn : Addr) : (zext16 nnn).toNat ≤ 0x10FE := by
  have := nnn.isLt
  rw [zext16_toNat]
  omega

theorem byteToWord_toNat (b : Byte) : (byteToWord b).toNat = b.toNat :=
  BitVec.toNat_setWidth_of_le (by decide)

/-- The sum of an offset jump is at most 0xFF + 0xFFF, so it does not wrap at 16 bits (D7). -/
theorem byteToWord_add_zext16_toNat (b : Byte) (nnn : Addr) :
    (byteToWord b + zext16 nnn).toNat = b.toNat + nnn.toNat := by
  have := b.isLt
  have := nnn.isLt
  rw [BitVec.toNat_add, byteToWord_toNat, zext16_toNat]
  omega

/-- An instruction executed after a fetch at 0xFFE or below leaves PC at most 0x10FE. -/
theorem exec_pc_le {i : Instr} (h : exec i s = .next t) (hg : t.rs ≠ .faulted) (hlo : 2 ≤ s.pc.toNat)
    (hpc : s.pc.toNat ≤ 0x1000) (hst : s.StackInRange) : t.pc.toNat ≤ 0x10FE := by
  obtain ⟨-, -, hkeep, -⟩ := exec_keepsBut_footprint h hg
  cases i with
  | seByte | sneByte | seReg | sneReg => cases h; exact State.skipIf_pc_le _ hpc
  | jp nnn => cases h; exact zext16_toNat_le nnn
  | jpV0 nnn =>
    cases h
    have := (s.readV 0).isLt
    have := nnn.isLt
    rw [State.setPC_pc, byteToWord_add_zext16_toNat]
    omega
  | ret x =>
    cases h
    by_cases hs : 0 < s.sp.val
    · simp only [hs, ↓reduceDIte, State.popPC_eq, State.setPC_pc]
      have : s.stack[s.sp.val - 1].toNat ≤ 0x1000 := hst ⟨s.sp.val - 1, by omega⟩ (by simp only; omega)
      omega
    · simp [hs] at hg
  | call nnn =>
    cases h
    by_cases hs : s.sp.val < 16
    · simp only [hs, ↓reduceDIte, State.setPC_pc]
      exact zext16_toNat_le nnn
    · simp [hs] at hg
  | skp x | sknp x =>
    cases h
    rcases s.withKey_cases x _ _ with ⟨b, he⟩ | ⟨k, info, w, he⟩
    · rw [he]
      exact State.skipIf_pc_le _ hpc
    · simp [he] at hg
  | ldVxK x =>
    cases h
    cases s.firstHeld
    · simp only [State.setPC_pc, wordBytes]
      bv_omega
    · simp only [State.writeV_pc]
      omega
  | _ =>
    rw [hkeep (by simp [Instr.footprint])]
    omega

theorem executeWord_pcInRange {w : Word} (h : executeWord w s = .next t) (hlo : 2 ≤ s.pc.toNat)
    (hpc : s.pc.toNat ≤ 0x1000) (hst : s.StackInRange) : t.PcInRange := by
  intro hg
  rcases executeWord_cases w s with ⟨i, -, he⟩ | he | he <;> rw [he] at h
  · exact ⟨exec_pc_le h hg hlo hpc hst, exec_stackInRange h hg hpc hst⟩
  · cases h
    exact ⟨by omega, hst⟩
  · cases h
    exact absurd rfl hg

theorem State.endCycle_pcInRange (h : t.PcInRange) : t.endCycle.PcInRange := by
  obtain ⟨_, _, _, _, he⟩ := t.endCycle_frame
  rw [he]
  exact h

theorem cycle_pcInRange {k : Word} (h : cycle k s = .next t) (hr : s.rs = .running) (hi : s.PcInRange) :
    t.PcInRange := by
  obtain ⟨hpc, hst⟩ := hi (hr ▸ nofun)
  rcases cycle_next_cases h with ⟨-, rfl⟩ | ⟨hle, u, hu, rfl⟩
  · exact fun _ => ⟨hpc, hst⟩
  · have hadd : (s.fetched k).pc.toNat = s.pc.toNat + 2 := by
      rw [State.fetched_eq, State.setKS_pc, State.setPC_pc]
      bv_omega
    exact State.endCycle_pcInRange (executeWord_pcInRange hu (by omega) (by omega) hst)

/-- Settles O10: a fetch starts at 0xFFE or below, so what an instruction makes of PC and what it pushes is in range; a
halt leaves PC, a reset sets it to 0x200 with an empty stack, and no other step writes either. -/
theorem stepKeepsPcInRange : Obligations.StepKeepsPcInRange := by
  intro s t hi h
  cases step_next_cases h with
  | reset l _ _ ht =>
    have hbase : (0x200#16).toNat ≤ 0x10FE := by decide
    subst ht
    exact fun _ => ⟨hbase, fun _ hk => absurd hk (Nat.not_lt_zero _)⟩
  | start _ _ hr ht => subst ht; exact fun _ => hi (hr ▸ nofun)
  | cycle k es n hr hc => exact cycle_pcInRange hc hr hi
  | load _ _ _ _ ht | tick _ _ _ _ ht | noEffect _ _ _ _ ht | idle _ _ ht => subst ht; exact hi

/-! ### Halted and faulted -/

/-- Settles O18: of the cases of a step only the event without effect has its condition on RS met, and that event is
taken off the schedule and nothing else. -/
theorem onlyResetLeavesHaltedOrFaulted : Obligations.OnlyResetLeavesHaltedOrFaulted := by
  intro s t hr hp h
  have hl : s.rs ≠ .loaded := by rcases hr with hr | hr <;> simp [hr]
  have hn : s.rs ≠ .running := by rcases hr with hr | hr <;> simp [hr]
  cases step_next_cases h with
  | reset l rest hres => exact absurd hres (hp l rest)
  | noEffect e rest hev _ ht =>
    subst ht
    rw [hev]
    exact .refl _ _
  | load _ _ _ hr' | start _ _ hr' | idle _ hr' => exact absurd hr' hl
  | tick _ _ hr' | cycle _ _ _ hr' => exact absurd hr' hn

end Sys2Proof.Machine
end

section
/-! O6, O7, O11, O12, O13, O17: reset, the cycle and the ports (10_state.md sections 9 and 11, 40_cycle.md section 1). -/

namespace Sys2Proof.Machine

variable {s t u : State}

/-! ### Reset -/

/-- Fresh memory has the listed byte at an address that is listed once. -/
theorem Memory.read_ofCells_of_mem {cs : List Host.Cell} (hnd : (cs.map Prod.fst).Nodup) {a : Nat} {x : Byte}
    (ha : a < memSize) (h : (a, x) ∈ cs) : (Memory.ofCells cs).read a = x := by
  induction cs with
  | nil => cases h
  | cons c cs ih =>
    obtain ⟨b, y⟩ := c
    obtain ⟨hb, hnd⟩ := List.nodup_cons.1 hnd
    rw [Memory.ofCells]
    rcases List.mem_cons.1 h with heq | hmem
    · cases heq
      rw [if_pos ha, Memory.read_write_same (.ofCells cs)]
    · have hab : a ≠ b := fun e => hb (e ▸ List.mem_map.2 ⟨_, hmem, rfl⟩)
      split
      · rw [Memory.read_write_other (.ofCells cs) hab, ih hnd hmem]
      · exact ih hnd hmem

/-- Fresh memory reads as unlisted at every other address. -/
theorem Memory.read_ofCells_of_not_mem {cs : List Host.Cell} {a : Nat} (h : ∀ x, (a, x) ∉ cs) :
    (Memory.ofCells cs).read a = Memory.unlisted := by
  induction cs with
  | nil => rfl
  | cons c cs ih =>
    obtain ⟨b, y⟩ := c
    have hab : a ≠ b := fun e => h y (e ▸ List.mem_cons_self)
    have ih := ih fun x hx => h x (List.mem_cons_of_mem _ hx)
    rw [Memory.ofCells]
    split
    · rw [Memory.read_write_other (.ofCells cs) hab, ih]
    · exact ih

theorem step_event {e : PortEvent} {rest : List PortEvent} (hp : s.ports = e :: rest) :
    step s = portStep e (s.setPorts rest) := by
  simp [step, stepOnce, hp]

/-- Settles O6: the reset's record field by field, and memory made of the cells this reset is given. -/
theorem resetEventLeavesResetValues : Obligations.ResetEventLeavesResetValues := by
  intro s l rest hp
  refine ⟨(s.setPorts rest).afterReset l, step_event hp, rfl, rfl, rfl, rfl, fun hz => ?_, fun hz => ?_,
    fun hnd a ha => ?_, rfl, rfl⟩
  · simp [State.afterReset, State.readV, hz]
  · simp [State.afterReset, hz]
  · exact ⟨fun x hx => Memory.read_ofCells_of_mem hnd ha hx, fun hx => Memory.read_ofCells_of_not_mem hx⟩

/-- Settles O7: the reset state is a literal, with every register 0, no byte listed and no slot occupied. -/
theorem resetStateMeetsInvariants : Obligations.ResetStateMeetsInvariants := by
  refine ⟨rfl, rfl, rfl, rfl, fun x => ?_, fun _ => rfl, rfl, iff_of_false nofun (not_not.2 rfl), fun _ => ⟨?_, ?_⟩⟩
  · simp [State.reset, State.readV]
  · decide
  · exact fun _ hk => absurd hk (Nat.not_lt_zero _)

/-! ### The end of a cycle -/

theorem KeepsBut.trans {ps : List Piece} (h : KeepsBut ps s t) (h' : KeepsBut ps t u) : KeepsBut ps s u := by
  obtain ⟨v, i, pc, stack, sp, dt, st, d, m, rs, fr, ks, cfg, ports⟩ := h
  obtain ⟨v', i', pc', stack', sp', dt', st', d', m', rs', fr', ks', cfg', ports'⟩ := h'
  exact ⟨fun hp x => (v' hp x).trans (v hp x), fun hp => (i' hp).trans (i hp), fun hp => (pc' hp).trans (pc hp),
    fun hp => (stack' hp).trans (stack hp), fun hp => (sp' hp).trans (sp hp), fun hp => (dt' hp).trans (dt hp),
    fun hp => (st' hp).trans (st hp), fun hp => (d' hp).trans (d hp), fun hp a => (m' hp a).trans (m hp a),
    fun hp => (rs' hp).trans (rs hp), fun hp => (fr' hp).trans (fr hp), fun hp => (ks' hp).trans (ks hp),
    cfg'.trans cfg, ports'.trans ports⟩

theorem KeepsBut.mono {ps qs : List Piece} (h : KeepsBut ps s t) (hsub : ps ⊆ qs) : KeepsBut qs s t := by
  obtain ⟨v, i, pc, stack, sp, dt, st, d, m, rs, fr, ks, cfg, ports⟩ := h
  have hn : ∀ {p}, p ∉ qs → p ∉ ps := fun hq hp => hq (hsub hp)
  exact ⟨fun hp => v (hn hp), fun hp => i (hn hp), fun hp => pc (hn hp), fun hp => stack (hn hp), fun hp => sp (hn hp),
    fun hp => dt (hn hp), fun hp => st (hn hp), fun hp => d (hn hp), fun hp => m (hn hp), fun hp => rs (hn hp),
    fun hp => fr (hn hp), fun hp => ks (hn hp), cfg, ports⟩

theorem State.endCycle_keepsBut (t : State) : KeepsBut [.dt, .st, .ks] t t.endCycle := by
  obtain ⟨a, b, k, n, he⟩ := t.endCycle_frame
  rw [he]
  simp [KeepsBut, State.readV]

/-- How far the end of a cycle takes a timer down in a timer mode (R97). -/
def cycleTicks : TimerMode → Nat
  | .coupled => 1
  | .independent => 0

theorem State.endCycle_timers (hg : t.rs ≠ .faulted) :
    t.endCycle.dt.toNat = t.dt.toNat - cycleTicks t.cfg.timerMode ∧
    t.endCycle.st.toNat = t.st.toNat - cycleTicks t.cfg.timerMode := by
  rw [State.endCycle_good hg, State.coupledTimerStep_eq]
  cases t.cfg.timerMode
  · exact ⟨decTimer_toNat _, decTimer_toNat _⟩
  · exact ⟨rfl, rfl⟩

/-! ### The cycle -/

/-- A cycle whose word decodes is the instruction and the end of the cycle. -/
theorem cycle_instr {k : Word} {i : Instr} (hpc : s.pc.toNat ≤ 0xFFE)
    (hd : decodeWord s.cfg.decodeStrict s.wordAtPC = .instr i) (he : exec i (s.fetched k) = .next t) :
    cycle k s = .next t.endCycle := by
  have hw : executeWord s.wordAtPC (s.fetched k) = exec i (s.fetched k) := executeWord_instr hd
  rw [cycle_runs hpc, hw, he, endOfCycle]

theorem CycleIsNext.step_eq {k : Word} {rest : List PortEvent} (h : CycleIsNext s k rest) :
    step s = cycle k (s.setPorts rest) := by
  obtain ⟨hr, hp, -⟩ := h
  exact step_keys hr hp

theorem CycleIsNext.step_instr {k : Word} {rest : List PortEvent} {i : Instr} (h : CycleIsNext s k rest)
    (hd : decodeWord s.cfg.decodeStrict s.wordAtPC = .instr i)
    (he : exec i ((s.setPorts rest).fetched k) = .next t) : step s = .next t.endCycle := by
  obtain ⟨-, -, hpc⟩ := id h
  rw [h.step_eq]
  exact cycle_instr hpc hd he

/-- Settles O11: both parts are a cycle, of a scheduled sample and of a free one, and no instruction stops. -/
theorem stepRunsTheDecodedInstruction : Obligations.StepRunsTheDecodedInstruction := by
  constructor
  · intro s k rest i hc hd
    obtain ⟨t, he⟩ := exec_next ((s.setPorts rest).fetched k) i
    exact ⟨t, he, hc.step_instr hd he⟩
  · intro s i hr hp hm hpc hd
    obtain ⟨t, he⟩ := exec_next (s.nextDraw.fetched (Config.keysInput s.draws)) i
    have hstep : step s = cycle (Config.keysInput s.draws) s.nextDraw := by
      simp [step, stepOnce, hp, hr, freeStep, hm]
    exact ⟨t, he, hstep.trans (cycle_instr hpc hd he)⟩

/-- Settles O12: the cycle is the halt, one write of RS. -/
theorem cyclePastTheEndHalts : Obligations.CyclePastTheEndHalts := by
  intro s k rest hr hp hpc
  refine ⟨(s.setPorts rest).setRS .halted, (step_keys hr hp).trans (cycle_halts hpc), rfl, .inl rfl, ?_⟩
  simp [KeepsBut]

/-- The fetch changes PC and KS only. -/
theorem State.fetched_keepsBut (s : State) (k : Word) : KeepsBut [.pc, .ks] s (s.fetched k) := by
  simp [KeepsBut, State.fetched_eq]

/-- Settles O13: under noop the cycle is the fetch and the end of the cycle; under fault it ends with the raise, in
which PC holds the fetch address + 2. -/
theorem unmatchedWordIsNoopOrFault : Obligations.UnmatchedWordIsNoopOrFault := by
  intro s k rest hc hd
  obtain ⟨hr, -, hpc⟩ := id hc
  have hex := executeWord_unmatched (s := (s.setPorts rest).fetched k) hd
  have hstep : step s = endOfCycle (executeWord s.wordAtPC ((s.setPorts rest).fetched k)) :=
    hc.step_eq.trans (cycle_runs hpc)
  have hcfg : ((s.setPorts rest).fetched k).cfg = s.cfg := rfl
  rw [hex, hcfg] at hstep
  constructor
  · intro hpol
    have hg : ((s.setPorts rest).fetched k).rs ≠ .faulted := fun hf => nomatch hr.symm.trans hf
    simp only [hpol, endOfCycle] at hstep
    have htimers := State.endCycle_timers hg
    obtain ⟨-, -, hpc', -⟩ := ((s.setPorts rest).fetched k).endCycle_keepsBut
    refine ⟨_, hstep, hpc' (by decide), ?_, fun hm => ?_, fun hm => ?_⟩
    · exact ((State.fetched_keepsBut _ _).mono (by simp)).trans ((State.endCycle_keepsBut _).mono (by simp))
    · rw [hcfg, hm] at htimers
      exact htimers
    · rw [hcfg, hm] at htimers
      exact ⟨BitVec.eq_of_toNat_eq htimers.1, BitVec.eq_of_toNat_eq htimers.2⟩
  · intro hpol
    simp only [hpol, endOfCycle, State.endCycle_faulted (State.raiseFault_rs _ _ _ _)] at hstep
    refine ⟨_, hstep, rfl, ?_, rfl⟩
    simp [State.fetched_eq]

/-! ### The ports -/

/-- Settles O17: each port's arm at each run state and timer mode, and a step with nothing pending. -/
theorem portsActAsStated : Obligations.PortsActAsStated := by
  refine fun s rest => ⟨fun hp => ?start, fun hp => ?tick, fun bytes hp hr => ?load, fun k hp hr => ?keys,
    fun hp => ?nothing⟩
  case start => constructor <;> intro hr <;> simp [step_event hp, portStep, hr]
  case tick =>
    refine ⟨fun hm => ?_, fun hm => ?_⟩
    · simp [step_event hp, portStep, hm]
    · constructor <;> intro hr <;> simp [step_event hp, portStep, hm, hr]
  case load => simp [step_event hp, portStep, hr]
  case keys => simp [step_event hp, portStep, hr]
  case nothing => refine ⟨?_, ?_, ?_⟩ <;> intro hr <;> simp [step, stepOnce, hp, hr]

end Sys2Proof.Machine
end

section
/-! O20, O22, O23, O24, O25: the other control transfers and skips (41_control.md sections 2 and 3). -/

namespace Sys2Proof.Machine

variable {s : State}

/-- A row whose mask is the same under both values of DECODE_STRICT decodes as its instruction with the fields of the
word. -/
theorem DecodesAs.of_row (j : Instr) (hm : rowMask false j = rowMask true j) :
    DecodesAs (rowMask true j) (rowMatch j) (fun w => j.withFieldsOf w) := by
  intro strict w hw
  refine decodeWord_of_row j ?_
  cases strict
  · rwa [hm]
  · exact hw

/-- Settles O20: the row of Indicator B, and one write of PC, of a sum that does not reach 16 bits. -/
theorem offsetJumpAddsV0 : Obligations.OffsetJumpAddsV0 :=
  ⟨.of_row (.jpV0 0) rfl, fun nnn s => ⟨_, rfl, .setPC _, byteToWord_add_zext16_toNat (s.readV 0) nnn⟩⟩

/-! ### The register skips -/

/-- A word that the strict mask of 5XY0 or 9XY0 matches is one that the lax mask matches, with N = 0. -/
theorem decodeWord_of_strictRow {j : Instr} {a : Nibble} (hstrict : rowMask true j = 0xF00F)
    (hlax : rowMask false j = 0xF000) (hm : rowMatch j = a ++ 0#4 ++ 0#4 ++ 0#4) (strict : Bool) {w : Word}
    (h : w &&& 0xF00F = rowMatch j) : decodeWord strict w = .instr (j.withFieldsOf w) ∧ fieldN w = 0 := by
  rw [hm] at h
  refine ⟨decodeWord_of_row j ?_, (n_of_and_F00F h).trans (fieldN_xyn ..)⟩
  rw [hm]
  cases strict
  · rw [hlax, word_and_F000, ind_of_and_F00F h, fieldInd_xyn]
  · rw [hstrict, h]

theorem decodesAs_seReg : DecodesAs 0xF00F 0x5000 (fun w => .seReg (fieldX w) (fieldY w) 0) := by
  intro strict w hw
  obtain ⟨hd, hn⟩ := decodeWord_of_strictRow (j := .seReg 0 0 0) (a := 5) rfl rfl rfl strict hw
  rw [hd, Instr.withFieldsOf, hn]

theorem decodesAs_sneReg : DecodesAs 0xF00F 0x9000 (fun w => .sneReg (fieldX w) (fieldY w) 0) := by
  intro strict w hw
  obtain ⟨hd, hn⟩ := decodeWord_of_strictRow (j := .sneReg 0 0 0) (a := 9) rfl rfl rfl strict hw
  rw [hd, Instr.withFieldsOf, hn]

/-- Settles O22: the rows 5XY0 and 9XY0 with both masks, and a conditional skip on VX = VY and on its negation. -/
theorem skipOnRegisters : Obligations.SkipOnRegisters := by
  refine ⟨decodesAs_seReg, decodesAs_sneReg, fun w hw => decodeWord_of_row (strict := false) (.seReg 0 0 0) hw,
    fun w hw => decodeWord_of_row (strict := false) (.sneReg 0 0 0) hw,
    fun x y n s => ⟨completes_skipIf (s.readV x = s.readV y), ?_⟩⟩
  obtain ⟨t, he, hk, hskip, hstay⟩ := completes_skipIf (s := s) (s.readV x ≠ s.readV y)
  exact ⟨t, he, hk, hskip, fun h => hstay (not_not_intro h)⟩

/-! ### Calls and returns -/

theorem exec_ret_pops (x : Nibble) (h : 0 < s.sp.val) : exec (.ret x) s = .next (s.popPC h) := by
  simp [exec, execRet, h]

theorem exec_ret_underflows (x : Nibble) (h : ¬0 < s.sp.val) :
    exec (.ret x) s = .next (s.raiseFault .stackUnderflow 0 (encode (.ret x))) := by
  simp [exec, execRet, h]

theorem exec_call_pushes (nnn : Addr) (h : s.sp.val < 16) :
    exec (.call nnn) s = .next ((s.push s.pc h).setPC (zext16 nnn)) := by
  simp [exec, execCall, h]

theorem exec_call_overflows (nnn : Addr) (h : ¬s.sp.val < 16) :
    exec (.call nnn) s = .next (s.raiseFault .stackOverflow 16 (encode (.call nnn))) := by
  simp [exec, execCall, h]

theorem takesFault_raiseFault (k : FaultKind) (info : Nat) (w : Word) :
    TakesFault s (.next (s.raiseFault k info w)) k info w :=
  ⟨_, rfl, rfl, rfl, rfl, rfl⟩

/-- A pop keeps every piece but PC and SP, the slot included (D27). -/
theorem KeepsBut.popPC (h : 0 < s.sp.val) : KeepsBut [.pc, .sp] s (s.popPC h) := by
  simp [KeepsBut, State.popPC_eq]

/-- Settles O23: the row 00EE, a pop where SP is not 0 and a raise where it is. -/
theorem returnPopsOrUnderflows : Obligations.ReturnPopsOrUnderflows := by
  refine ⟨fun strict => by cases strict <;> rfl, fun w hw => decodeWord_of_row (strict := false) (.ret 0) hw,
    fun x s => ⟨fun k hk => ?_, fun h0 => ?_⟩⟩
  · have hpos : 0 < s.sp.val := by omega
    rw [exec_ret_pops x hpos]
    refine ⟨_, rfl, .popPC hpos, ?_, ?_⟩
    · simp [State.popPC_eq, hk]
    · simp [State.popPC_eq, hk]
  · rw [exec_ret_underflows x (by simp [h0])]
    exact takesFault_raiseFault _ _ _

/-- A call keeps every piece but PC, SP and the stack. -/
theorem KeepsBut.push_setPC (w a : Word) (h : s.sp.val < 16) :
    KeepsBut [.pc, .sp, .stack] s ((s.push w h).setPC a) := by
  simp [KeepsBut, State.push_eq]

/-- Settles O24: the row of Indicator 2, a push of PC where SP is below 16 and a raise where it is 16. -/
theorem callPushesOrOverflows : Obligations.CallPushesOrOverflows := by
  refine ⟨.of_row (.call 0) rfl, fun nnn s => ⟨fun k hk => ?_, fun h16 => ?_⟩⟩
  · have hroom : s.sp.val < 16 := by omega
    rw [exec_call_pushes nnn hroom]
    refine ⟨_, rfl, .push_setPC _ _ hroom, ?_, fun j hj => ?_, ?_, zext16_toNat nnn⟩
    · simp [State.push_eq, hk]
    · have hne : k.val ≠ j.val := fun e => hj (Fin.ext e.symm)
      simp [State.push_eq, hk, hne]
    · simp [State.push_eq, hk]
  · rw [exec_call_overflows nnn (by simp [h16])]
    exact takesFault_raiseFault _ _ _

/-- Settles O25: the slot a return reads is the one the call filled, and SP goes back by the one it went up. -/
theorem callThenReturnRoundTrip : Obligations.CallThenReturnRoundTrip := by
  intro nnn x s hroom
  refine ⟨_, exec_call_pushes nnn hroom, fun u hstack hsp => ?_⟩
  have hu : u.sp.val = s.sp.val + 1 := by rw [hsp]; rfl
  have hpos : 0 < u.sp.val := by omega
  refine ⟨_, exec_ret_pops x hpos, ?_, ?_, .popPC hpos⟩
  · simp [State.popPC_eq, hu, hstack, State.push_eq]
  · simp [State.popPC_eq, hu]

end Sys2Proof.Machine
end

section
/-! O29, O30, O31, O32, O34, O41: the logic operations, the flag writers, the addition to I and the clear
(42_alu.md section 3, 43_index_memory.md R141, 44_display.md R151). -/

namespace Sys2Proof.Machine

variable {s : State}

theorem Completes.imp {r : Result} {ps : List Piece} {P Q : State → Prop} (h : Completes s r ps P)
    (hpq : ∀ t, P t → Q t) : Completes s r ps Q := by
  obtain ⟨t, he, hk, hp⟩ := h
  exact ⟨t, he, hk, hpq t hp⟩

/-! ### Logic operations -/

/-- One write of VX with a byte whose every bit is as said. -/
theorem completes_writeV_bits (x : Nibble) {b : Byte} {bit : Nat → Bool} (hb : ∀ k, b.getLsbD k = bit k) :
    Completes s (.next (s.writeV x b)) [.v] fun t =>
      (∀ z, z ≠ x → t.readV z = s.readV z) ∧ ∀ k, (t.readV x).getLsbD k = bit k :=
  (completes_writeV x b).imp fun _ ⟨hx, hother⟩ => ⟨hother, hx ▸ hb⟩

/-- Settles O29: the three rows, each one write of VX with the bitwise result. -/
theorem logicOperationsLeaveVF : Obligations.LogicOperationsLeaveVF :=
  ⟨.of_row (.orReg 0 0) rfl, .of_row (.andReg 0 0) rfl, .of_row (.xorReg 0 0) rfl, fun x _ _ =>
    ⟨completes_writeV_bits x fun _ => BitVec.getLsbD_or, completes_writeV_bits x fun _ => BitVec.getLsbD_and,
      completes_writeV_bits x fun _ => BitVec.getLsbD_xor⟩⟩

/-! ### Flag writers -/

theorem writesResultAndFlag_writeResultFlag (x : Nibble) (r f : Byte) :
    WritesResultAndFlag s (s.writeResultFlag x r f) x r.toNat f.toNat := by
  have hregF : (0xF : Nibble) = regF := rfl
  simp only [WritesResultAndFlag, hregF, State.readV_writeResultFlag]
  refine ⟨fun z hx hF => ?_, fun hx => ⟨?_, ?_⟩, fun hx ho => ?_, fun hx ho => ?_⟩
  · simp [hF, hx]
  · simp [hx]
  · simp [hx]
  · simp [ho]
  · simp [hx, ho]

/-- A flag writer completes, with the numbers that its result and its flag are. -/
theorem completes_writeResultFlag (x : Nibble) {r f : Byte} {rn fn : Nat} (hr : r.toNat = rn) (hf : f.toNat = fn) :
    Completes s (.next (s.writeResultFlag x r f)) [.v] fun t => WritesResultAndFlag s t x rn fn :=
  ⟨_, rfl, .writeResultFlag x r f, hr ▸ hf ▸ writesResultAndFlag_writeResultFlag x r f⟩

section
variable (a b : Byte)

theorem flagByte_toNat (c : Bool) : (flagByte c).toNat = c.toNat := by
  cases c <;> rfl

theorem flagByte_decide_toNat (c : Prop) [Decidable c] : (flagByte (decide c)).toNat = if c then 1 else 0 := by
  by_cases h : c <;> simp [flagByte, h]

theorem carryFlag_toNat : (carryFlag a b).toNat = if a.toNat + b.toNat > 255 then 1 else 0 := by
  rw [carryFlag, flagByte_decide_toNat]

theorem notBorrowFlag_toNat : (notBorrowFlag a b).toNat = if a.toNat ≥ b.toNat then 1 else 0 := by
  rw [notBorrowFlag, flagByte_decide_toNat]

theorem byte_sub_toNat : ((a - b).toNat : Int) = (a.toNat - b.toNat : Int) % 256 := by
  have := a.isLt
  have := b.isLt
  rw [BitVec.toNat_sub]
  omega

theorem shiftedOutRight_toNat : (shiftedOutRight a).toNat = a.toNat % 2 := by
  rw [shiftedOutRight, flagByte_toNat, BitVec.getLsbD, Nat.toNat_testBit]
  omega

theorem shiftedOutLeft_toNat : (shiftedOutLeft a).toNat = a.toNat / 128 := by
  have := a.isLt
  rw [shiftedOutLeft, flagByte_toNat, BitVec.getLsbD, Nat.toNat_testBit]
  omega

theorem byte_ushiftRight_one_toNat : (a >>> 1).toNat = a.toNat / 2 := by
  rw [BitVec.toNat_ushiftRight, Nat.shiftRight_eq_div_pow, Nat.pow_one]

theorem byte_shiftLeft_one_toNat : (a <<< 1).toNat = a.toNat * 2 % 256 := by
  rw [BitVec.toNat_shiftLeft, Nat.shiftLeft_eq, Nat.pow_one]

end

/-- Settles O30: the row, and the two writes of a byte sum and its carry. -/
theorem addWithCarry : Obligations.AddWithCarry :=
  ⟨.of_row (.addReg 0 0) rfl, fun x _ _ =>
    completes_writeResultFlag x (BitVec.toNat_add _ _) (carryFlag_toNat _ _)⟩

/-- A difference and its not-borrow, the difference over the integers modulo 256. -/
theorem completes_difference (x : Nibble) (a b : Byte) :
    Completes s (.next (s.writeResultFlag x (a - b) (notBorrowFlag a b))) [.v] fun t => ∃ r : Nat,
      (r : Int) = (a.toNat - b.toNat : Int) % 256 ∧
        WritesResultAndFlag s t x r (if a.toNat ≥ b.toNat then 1 else 0) :=
  (completes_writeResultFlag x rfl (notBorrowFlag_toNat a b)).imp fun _ h => ⟨_, byte_sub_toNat a b, h⟩

/-- Settles O31: the two rows, and a difference of VX and VY in either order. -/
theorem subtractWithNotBorrow : Obligations.SubtractWithNotBorrow :=
  ⟨.of_row (.subReg 0 0) rfl, .of_row (.subnReg 0 0) rfl, fun x y s =>
    ⟨completes_difference x (s.readV x) (s.readV y), completes_difference x (s.readV y) (s.readV x)⟩⟩

/-- Settles O32: the two rows, and the two writes of VX shifted and the bit shifted out. -/
theorem shiftsByOne : Obligations.ShiftsByOne :=
  ⟨.of_row (.shr 0 0) rfl, .of_row (.shl 0 0) rfl, fun x _ _ =>
    ⟨completes_writeResultFlag x (byte_ushiftRight_one_toNat _) (shiftedOutRight_toNat _),
      completes_writeResultFlag x (byte_shiftLeft_one_toNat _) (shiftedOutLeft_toNat _)⟩⟩

/-! ### The addition to I and the clear -/

/-- Settles O34: the row, and one write of I, of a 16-bit sum. -/
theorem addToIndex : Obligations.AddToIndex := by
  refine ⟨.of_row (.addI 0) rfl, fun x s => ⟨_, rfl, .setI _, ?_⟩⟩
  simp only [State.setI_i, BitVec.toNat_add, byteToWord_toNat]

/-- Any write of the display keeps every other piece. -/
theorem KeepsBut.setDisplay (d : Vector Row 32) : KeepsBut [.display] s (s.setDisplay d) := by
  simp [KeepsBut]

/-- Settles O41: the row 00E0, and one write of the display, all rows 0. -/
theorem clearZeroesEveryRow : Obligations.ClearZeroesEveryRow := by
  refine ⟨fun strict => by cases strict <;> rfl, fun w hw => decodeWord_of_row (strict := false) (.cls 0) hw,
    fun x s => ⟨_, rfl, .setDisplay _, fun k => ?_⟩⟩
  simp

end Sys2Proof.Machine
end

section
/-! O35, O36, O37, O38, O39, O40: the memory transfers, in bounds and out (43_index_memory.md section 2, 20_memory.md
R51, R66). -/

namespace Sys2Proof.Machine

variable {s : State}

/-! ### In bounds -/

theorem State.inBounds_of_operandAddr_lt {k : Nat} (h : s.operandAddr k < 4096) :
    s.i.toNat + (k + 1) ≤ memSize := by
  rw [State.operandAddr] at h
  rw [memSize]
  omega

theorem exec_ldB_inBounds (x : Nibble) (h : s.operandAddr 2 < 4096) :
    exec (.ldB x) s = .next (s.setMem (s.mem.writeBytes (s.operandAddr 0) (bcdDigits (s.readV x)))) := by
  rw [exec, execLdB, State.withBytesAtI_inBounds (.inr (State.inBounds_of_operandAddr_lt h))]

theorem exec_storeRegs_inBounds (x : Nibble) (h : s.operandAddr x.toNat < 4096) :
    exec (.storeRegs x) s =
      .next (s.setMem (s.mem.writeBytes (s.operandAddr 0) (s.firstRegs (x.toNat + 1)))) := by
  rw [exec, execStoreRegs, State.withBytesAtI_inBounds (.inr (State.inBounds_of_operandAddr_lt h))]

theorem exec_loadRegs_inBounds (x : Nibble) (h : s.operandAddr x.toNat < 4096) :
    exec (.loadRegs x) s = .next (s.loadFirstRegs (x.toNat + 1)) := by
  rw [exec, execLoadRegs, State.withBytesAtI_inBounds (.inr (State.inBounds_of_operandAddr_lt h))]

/-- A block store at I completes, with byte k at I + k and every byte outside the block as it was. -/
theorem completes_writeBytes (hm : s.MemoryCanonical) {xs : List Byte} (hb : s.i.toNat + xs.length ≤ memSize) :
    Completes s (.next (s.setMem (s.mem.writeBytes (s.operandAddr 0) xs))) [.mem] fun t =>
      (∀ (k : Nat) (hk : k < xs.length), t.mem.read (s.operandAddr k) = xs[k]) ∧
      ∀ a, (a < s.operandAddr 0 ∨ s.operandAddr xs.length ≤ a) → t.mem.read a = s.mem.read a := by
  have hread := Memory.read_writeBytes (Memory.wf_iff_canon.1 hm) (a := s.operandAddr 0) hb
  refine ⟨_, rfl, .setMem _ _, fun k hk => ?_, fun a ha => ?_⟩ <;> rw [State.setMem_mem, hread]
  · rw [dif_pos (by simp only [State.operandAddr]; omega)]
    simp [State.operandAddr]
  · rw [dif_neg (by simp only [State.operandAddr] at ha ⊢; omega)]

/-! ### FX33 -/

section
variable (b : Byte)

theorem bcd_hundreds_toNat : (BitVec.ofNat 8 (b.toNat / 100)).toNat = b.toNat / 100 :=
  Nat.mod_eq_of_lt (by have := b.isLt; omega)

theorem bcd_tens_toNat : (BitVec.ofNat 8 (b.toNat / 10 % 10)).toNat = b.toNat / 10 % 10 :=
  Nat.mod_eq_of_lt (by omega)

theorem bcd_units_toNat : (BitVec.ofNat 8 (b.toNat % 10)).toNat = b.toNat % 10 :=
  Nat.mod_eq_of_lt (by omega)

end

/-- Settles O35: the row, and a block store of the three digits, each below its base. -/
theorem bcdStoresThreeDigits : Obligations.BcdStoresThreeDigits := by
  refine ⟨.of_row (.ldB 0) rfl, fun x s hm hb => ?_⟩
  rw [exec_ldB_inBounds x hb]
  have hlen : (bcdDigits (s.readV x)).length = 3 := rfl
  refine (completes_writeBytes hm (by rw [hlen]; exact State.inBounds_of_operandAddr_lt hb)).imp
    fun t ⟨hin, hout⟩ => ?_
  have hdigits : (s.readV x).toNat < 256 := (s.readV x).isLt
  have h0 : t.mem.read (s.operandAddr 0) = BitVec.ofNat 8 ((s.readV x).toNat / 100) := hin 0 (by rw [hlen]; decide)
  have h1 : t.mem.read (s.operandAddr 1) = BitVec.ofNat 8 ((s.readV x).toNat / 10 % 10) := hin 1 (by rw [hlen]; decide)
  have h2 : t.mem.read (s.operandAddr 2) = BitVec.ofNat 8 ((s.readV x).toNat % 10) := hin 2 (by rw [hlen]; decide)
  rw [h0, h1, h2, bcd_hundreds_toNat, bcd_tens_toNat, bcd_units_toNat]
  refine ⟨fun a n0 n1 n2 => hout a ?_, by omega, by omega, by omega, by omega⟩
  simp only [State.operandAddr, hlen] at n0 n1 n2 ⊢
  omega

/-! ### FX55 and FX65 -/

/-- The block store of the registers up to VX. -/
theorem completes_storeRegs (x : Nibble) (hm : s.MemoryCanonical) (hb : s.operandAddr x.toNat < 4096) :
    Completes s (exec (.storeRegs x) s) [.mem] fun t =>
      (∀ z : Nibble, z.toNat ≤ x.toNat → t.mem.read (s.operandAddr z.toNat) = s.readV z) ∧
      ∀ a, (a < s.operandAddr 0 ∨ s.operandAddr x.toNat < a) → t.mem.read a = s.mem.read a := by
  rw [exec_storeRegs_inBounds x hb]
  have hlen : (s.firstRegs (x.toNat + 1)).length = x.toNat + 1 := s.firstRegs_length _
  refine (completes_writeBytes hm (by rw [hlen]; exact State.inBounds_of_operandAddr_lt hb)).imp
    fun t ⟨hin, hout⟩ => ⟨fun z hz => ?_, fun a ha => hout a ?_⟩
  · rw [hin z.toNat (by omega), s.firstRegs_getElem _ _ (by omega), BitVec.ofNat_toNat, BitVec.setWidth_eq]
  · rw [hlen]
    exact ha

/-- Settles O36: the row, and the block store. -/
theorem blockStore : Obligations.BlockStore :=
  ⟨.of_row (.storeRegs 0) rfl, fun x _ hm hb => completes_storeRegs x hm hb⟩

/-- The block load of the registers up to VX. -/
theorem completes_loadRegs (x : Nibble) (hb : s.operandAddr x.toNat < 4096) :
    Completes s (exec (.loadRegs x) s) [.v] fun t =>
      (∀ z : Nibble, z.toNat ≤ x.toNat → t.readV z = s.mem.read (s.operandAddr z.toNat)) ∧
      ∀ z : Nibble, x.toNat < z.toNat → t.readV z = s.readV z := by
  obtain ⟨hread, v, he⟩ := s.loadFirstRegs_spec (x.toNat + 1) (by omega)
  refine ⟨_, exec_loadRegs_inBounds x hb, he ▸ .of_v v, fun z hz => ?_, fun z hz => ?_⟩
  · rw [hread, if_pos (by omega), State.operandAddr]
  · rw [hread, if_neg (by omega)]

/-- Settles O37: the row, and the block load. -/
theorem blockLoad : Obligations.BlockLoad :=
  ⟨.of_row (.loadRegs 0) rfl, fun x _ hb => completes_loadRegs x hb⟩

/-- Settles O38: the store keeps I, so the load reads where the store wrote. -/
theorem blockStoreThenLoadRestores : Obligations.BlockStoreThenLoadRestores := by
  intro x s hm hb
  obtain ⟨t, he, ⟨-, hi, -⟩, hstored, -⟩ := completes_storeRegs x hm hb
  refine ⟨t, he, fun u hui hum => ?_⟩
  have haddr : ∀ k, u.operandAddr k = s.operandAddr k := fun k => by
    rw [State.operandAddr, hui, hi (by decide), State.operandAddr]
  refine (completes_loadRegs x (by rwa [haddr])).imp fun r ⟨hloaded, _⟩ z hz => ?_
  rw [hloaded z hz, haddr, hum, hstored z hz]

/-- Settles O40: the two bytes of the fetched word are Vz and the next register's, which is no higher than VX. -/
theorem storedWordIsFetched : Obligations.StoredWordIsFetched := by
  intro x z s hm hb hz
  obtain ⟨t, he, -, hstored, -⟩ := completes_storeRegs x hm hb
  have hnext : (z + 1).toNat = z.toNat + 1 := by
    have := x.isLt
    bv_omega
  have hlow := hstored (z + 1) (by omega)
  rw [hnext] at hlow
  refine ⟨t, he, ?_⟩
  rw [State.fetchWord, wordOfBytes_toNat, hstored z hz.le]
  exact congrArg (fun b : Byte => (s.readV z).toNat * 256 + b.toNat) hlow

/-! ### Out of bounds -/

/-- Settles O39: the bounds check raises with the greater of I and 4096, which is the lowest bad address, and each of
the four instructions is behind that check. -/
theorem outOfBoundsAccessFaults : Obligations.OutOfBoundsAccessFaults := by
  rintro s a n ha ⟨k, hk, rfl⟩ hleast
  have hmax : max s.i.toNat memSize = s.i.toNat + k := by
    have := hleast (4096 - s.i.toNat)
    simp only [memSize]
    omega
  have hraise : ∀ (i : Instr) (t : State), TakesFault s (.next (s.withBytesAtI n i t)) .bounds (s.i.toNat + k)
      (encode i) := fun i t => by
    rw [State.withBytesAtI_out (by omega) (by rw [memSize]; omega), hmax]
    exact takesFault_raiseFault _ _ _
  refine ⟨fun x hn => ?_, fun x hn => ?_, fun x hn => ?_, fun x y m hn => ?_⟩ <;> subst hn <;> exact hraise _ _

end Sys2Proof.Machine
end

section
/-! O42, O43: the draw (44_display.md R152, R153; 95_test_vectors.md S7). A draw is an XOR of each display row with one
row of the sprite, and a pixel is hit where that row has its bit. -/

namespace Sys2Proof.Machine

variable {s t : State} {x y n : Nibble} {cx cy : Nat}

/-! ### The sprite, row by row -/

/-- What `DXYN` toggles in row `j`: the mask of the sprite's byte for that row, or nothing outside the sprite. -/
def State.spriteRow (s : State) (x y n : Nibble) (j : Nat) : Row :=
  if (s.readV y).toNat % 32 ≤ j ∧ j < (s.readV y).toNat % 32 + n.toNat then
    spriteMask (s.mem.read (s.i.toNat + (j - (s.readV y).toNat % 32))) ((s.readV x).toNat % 64)
  else 0

/-- The display and the collision that a draw computes. -/
def State.drawn (s : State) (x y n : Nibble) : Vector Row 32 × Bool :=
  drawRows s.mem ((s.readV x).toNat % 64) n.toNat ((s.readV y).toNat % 32) (s.operandAddr 0) s.display false

theorem State.drawSprite_eq (s : State) (x y n : Nibble) :
    s.drawSprite x y n = (s.setDisplay (s.drawn x y n).1).writeV regF (flagByte (s.drawn x y n).2) := rfl

theorem State.drawn_display (s : State) (x y n : Nibble) {j : Nat} (hj : j < 32) :
    (s.drawn x y n).1[j] = s.display[j] ^^^ s.spriteRow x y n j := by
  rw [State.drawn, (drawRows_spec ..).1 j hj, State.spriteRow]
  split
  · rfl
  · exact BitVec.xor_zero.symm

theorem State.drawn_collision (s : State) (x y n : Nibble) :
    (s.drawn x y n).2 = true ↔ ∃ (j : Nat) (hj : j < 32), s.display[j] &&& s.spriteRow x y n j ≠ 0 := by
  rw [State.drawn, (drawRows_spec ..).2, or_iff_right Bool.false_ne_true]
  refine exists_congr fun j => exists_congr fun hj => ?_
  rw [State.spriteRow]
  by_cases h : (s.readV y).toNat % 32 ≤ j ∧ j < (s.readV y).toNat % 32 + n.toNat
  · rw [if_pos h]
    exact ⟨fun ⟨_, _, hne⟩ => hne, fun hne => ⟨h.1, h.2, hne⟩⟩
  · rw [if_neg h]
    exact ⟨fun ⟨h1, h2, _⟩ => absurd ⟨h1, h2⟩ h, fun hne => absurd BitVec.and_zero hne⟩

/-! ### Rows and pixels -/

theorem row_ne_zero_iff (r : Row) : r ≠ 0 ↔ ∃ cx < 64, r.getLsbD (63 - cx) = true := by
  constructor
  · intro hne
    by_contra hall
    push Not at hall
    refine hne (BitVec.eq_of_getLsbD_eq fun k hk => ?_)
    have := hall (63 - k) (by omega)
    rw [show 63 - (63 - k) = k by omega] at this
    simpa using this
  · rintro ⟨cx, -, hbit⟩ rfl
    simp at hbit

theorem State.pixel_eq (s : State) (hx : cx < 64) (hy : cy < 32) :
    s.pixel cx cy = s.display[cy].getLsbD (63 - cx) :=
  dif_pos ⟨hx, hy⟩

/-- The pixels of R152's loops are the bits of the sprite's rows. -/
theorem spriteHits_iff :
    spriteHits s x y n cx cy ↔ cx < 64 ∧ cy < 32 ∧ (s.spriteRow x y n cy).getLsbD (63 - cx) = true := by
  unfold spriteHits
  dsimp only
  constructor
  · rintro ⟨r, c, hr, hc, rfl, rfl, hy, hx, hbit⟩
    refine ⟨hx, hy, ?_⟩
    rw [State.spriteRow, if_pos (by omega), spriteMask_bit _ _ _ hx, Nat.add_sub_cancel_left, Nat.add_sub_cancel_left,
      hbit, Bool.and_true]
    exact decide_eq_true (by omega)
  · rintro ⟨hx, hy, hbit⟩
    rw [State.spriteRow] at hbit
    split at hbit
    · rw [spriteMask_bit _ _ _ hx, Bool.and_eq_true, decide_eq_true_eq] at hbit
      obtain ⟨hcol, hbit⟩ := hbit
      exact ⟨_, _, by omega, by omega, by omega, by omega, hy, hx, hbit⟩
    · simp at hbit

theorem spriteHits_congr (hvx : t.readV x = s.readV x) (hvy : t.readV y = s.readV y) (hm : t.mem = s.mem)
    (hi : t.i = s.i) : spriteHits t x y n cx cy ↔ spriteHits s x y n cx cy := by
  simp only [spriteHits, hvx, hvy, hm, hi]

/-- A draw toggles the pixels it hits. -/
theorem State.drawSprite_pixel (s : State) (x y n : Nibble) (hx : cx < 64) (hy : cy < 32) :
    (s.drawSprite x y n).pixel cx cy = (s.pixel cx cy ^^ (s.spriteRow x y n cy).getLsbD (63 - cx)) := by
  rw [State.pixel_eq _ hx hy, State.pixel_eq _ hx hy, ← BitVec.getLsbD_xor, ← s.drawn_display x y n hy]
  rfl

theorem State.drawSprite_pixel_of_hit (h : spriteHits s x y n cx cy) :
    (s.drawSprite x y n).pixel cx cy = !s.pixel cx cy := by
  obtain ⟨hx, hy, hbit⟩ := spriteHits_iff.1 h
  rw [s.drawSprite_pixel x y n hx hy, hbit, Bool.xor_true]

theorem State.drawSprite_pixel_of_not_hit (hx : cx < 64) (hy : cy < 32) (h : ¬spriteHits s x y n cx cy) :
    (s.drawSprite x y n).pixel cx cy = s.pixel cx cy := by
  have hbit : (s.spriteRow x y n cy).getLsbD (63 - cx) = false :=
    Bool.eq_false_iff.2 fun hb => h (spriteHits_iff.2 ⟨hx, hy, hb⟩)
  rw [s.drawSprite_pixel x y n hx hy, hbit, Bool.xor_false]

/-- There is a collision exactly where a pixel that is hit was lit. -/
theorem State.drawn_collision_iff_pixels (s : State) (x y n : Nibble) :
    (s.drawn x y n).2 = true ↔ ∃ cx cy, spriteHits s x y n cx cy ∧ s.pixel cx cy = true := by
  simp only [State.drawn_collision, row_ne_zero_iff, spriteHits_iff, BitVec.getLsbD_and, Bool.and_eq_true]
  constructor
  · rintro ⟨cy, hy, cx, hx, hlit, hbit⟩
    exact ⟨cx, cy, ⟨hx, hy, hbit⟩, (s.pixel_eq hx hy).trans hlit⟩
  · rintro ⟨cx, cy, ⟨hx, hy, hbit⟩, hlit⟩
    exact ⟨cy, hy, cx, hx, (s.pixel_eq hx hy).symm.trans hlit, hbit⟩

theorem State.drawSprite_readV_regF (s : State) (x y n : Nibble) :
    (s.drawSprite x y n).readV 0xF = flagByte (s.drawn x y n).2 :=
  State.readV_writeV_same _ regF _

theorem State.drawSprite_readV_other (s : State) (x y n : Nibble) {z : Nibble} (hz : z ≠ 0xF) :
    (s.drawSprite x y n).readV z = s.readV z :=
  State.readV_writeV_other (s := s.setDisplay (s.drawn x y n).1) _ hz

theorem State.drawSprite_collides (h : ∃ cx cy, spriteHits s x y n cx cy ∧ s.pixel cx cy = true) :
    (s.drawSprite x y n).readV 0xF = 1 := by
  rw [State.drawSprite_readV_regF, (s.drawn_collision_iff_pixels x y n).2 h, flagByte, if_pos rfl]

theorem State.drawSprite_misses (h : ∀ cx cy, spriteHits s x y n cx cy → s.pixel cx cy = false) :
    (s.drawSprite x y n).readV 0xF = 0 := by
  have hno : ¬(s.drawn x y n).2 = true := fun hc => by
    obtain ⟨cx, cy, hhit, hlit⟩ := (s.drawn_collision_iff_pixels x y n).1 hc
    exact Bool.false_ne_true ((h cx cy hhit).symm.trans hlit)
  rw [State.drawSprite_readV_regF, flagByte, if_neg hno]

/-! ### The draw -/

theorem exec_drw_inBounds (x y : Nibble) (h : n = 0 ∨ s.i.toNat + n.toNat ≤ 4096) :
    exec (.drw x y n) s = .next (s.drawSprite x y n) := by
  have hb : n.toNat = 0 ∨ s.i.toNat + n.toNat ≤ memSize := h.imp_left fun hn => by rw [hn]; rfl
  rw [exec, execDrw, State.withBytesAtI_inBounds hb]

theorem KeepsBut.drawSprite (s : State) (x y n : Nibble) : KeepsBut [.display, .v] s (s.drawSprite x y n) := by
  simp [KeepsBut, State.drawSprite_eq]

/-- Settles O42: the row of Indicator D, and the draw pixel by pixel. -/
theorem drawTogglesSpritePixels : Obligations.DrawTogglesSpritePixels :=
  ⟨.of_row (.drw 0 0 0) rfl, fun x y n s hb => ⟨_, exec_drw_inBounds x y hb, .drawSprite s x y n,
    fun _ _ hx hy => ⟨State.drawSprite_pixel_of_hit, State.drawSprite_pixel_of_not_hit hx hy⟩,
    State.drawSprite_collides, State.drawSprite_misses, fun _ => s.drawSprite_readV_other x y n⟩⟩

theorem State.pixel_of_clear (h : ∀ k : Fin 32, s.display[k] = 0) (cx cy : Nat) : s.pixel cx cy = false := by
  unfold State.pixel
  split
  · rename_i hc
    have hrow : s.display[cy]'hc.2 = 0 := h ⟨cy, hc.2⟩
    rw [hrow]
    simp
  · rfl

/-- Settles O43: with the origin outside VF the two draws have the same sprite rows, and a XOR done twice is undone; on
a clear display the first draw meets no lit pixel and the second exactly those that the first has lit. -/
theorem drawTwiceRestoresTheDisplay : Obligations.DrawTwiceRestoresTheDisplay := by
  intro x y n s hx hy hb
  have hvx := s.drawSprite_readV_other x y n hx
  have hvy := s.drawSprite_readV_other x y n hy
  have hrow : (s.drawSprite x y n).spriteRow x y n = s.spriteRow x y n := by
    funext j
    rw [State.spriteRow, hvx, hvy]
    rfl
  have hhits : ∀ {cx cy}, spriteHits (s.drawSprite x y n) x y n cx cy ↔ spriteHits s x y n cx cy :=
    spriteHits_congr hvx hvy rfl rfl
  refine ⟨_, _, exec_drw_inBounds x y hb, exec_drw_inBounds x y hb, ?_, fun hclear => ⟨?_, ?_, ?_⟩⟩
  · refine Vector.ext fun j hj => ?_
    have h1 : (s.drawSprite x y n).display[j] = _ := s.drawn_display x y n hj
    have h2 : ((s.drawSprite x y n).drawSprite x y n).display[j] = _ := State.drawn_display _ x y n hj
    rw [h2, h1, hrow, BitVec.xor_assoc, BitVec.xor_self, BitVec.xor_zero]
  · exact State.drawSprite_misses fun cx cy _ => State.pixel_of_clear hclear cx cy
  · rintro ⟨cx, cy, hhit⟩
    refine State.drawSprite_collides ⟨cx, cy, hhits.2 hhit, ?_⟩
    rw [State.drawSprite_pixel_of_hit hhit, State.pixel_of_clear hclear, Bool.not_false]
  · intro hnone
    exact State.drawSprite_misses fun cx cy hhit => absurd (hhits.1 hhit) (hnone cx cy)

end Sys2Proof.Machine
end

section
/-! O44, O45, O46, O47, O48, O49: the keypad and the timers, by instruction and by cycle (45_keys_timers.md, 40_cycle.md
R97). -/

namespace Sys2Proof.Machine

variable {s t : State}

/-! ### Key skips -/

/-- The key state that an index gives: the key's for an index up to 15, released above under not_held. -/
theorem withKey_eq_of_held {x : Nibble} {held : Bool}
    (h : (s.readV x).toNat ≤ 15 ∧ held = s.ks.getLsbD (s.readV x).toNat ∨
      15 < (s.readV x).toNat ∧ s.cfg.keyIndex = .notHeld ∧ held = false) (i : Instr) (e : Bool → State) :
    s.withKey x i e = e held := by
  rcases h with ⟨hk, rfl⟩ | ⟨hk, hp, rfl⟩
  · exact State.withKey_valid hk i e
  · exact State.withKey_notHeld hk hp i e

/-- Settles O44: the two rows, and a conditional skip on the key's state and on its negation. -/
theorem keySkips : Obligations.KeySkips := by
  refine ⟨.of_row (.skp 0) rfl, .of_row (.sknp 0) rfl, fun x s held h => ⟨?_, ?_⟩⟩
  · rw [exec, execSkp, withKey_eq_of_held h]
    exact (completes_skipIf (held = true)).imp fun _ ⟨hskip, hstay⟩ => ⟨hskip, fun hf => hstay (by simp [hf])⟩
  · rw [exec, execSknp, withKey_eq_of_held h]
    exact (completes_skipIf (held = false)).imp fun _ ⟨hskip, hstay⟩ => ⟨hskip, fun hf => hstay (by simp [hf])⟩

/-- Settles O45: both instructions are behind the check of the key index, which raises. -/
theorem keyIndexAbove15Faults : Obligations.KeyIndexAbove15Faults := by
  intro x s hk hp
  constructor
  · rw [exec, execSkp, State.withKey_fault hk hp]
    exact takesFault_raiseFault _ _ _
  · rw [exec, execSknp, State.withKey_fault hk hp]
    exact takesFault_raiseFault _ _ _

/-! ### Waiting for a key -/

theorem exec_ldVxK_held (x : Nibble) {k : Nat} (h : s.firstHeld = some k) :
    exec (.ldVxK x) s = .next (s.writeV x (BitVec.ofNat 8 k)) := by
  simp [exec, execLdVxK, h]

theorem exec_ldVxK_none (x : Nibble) (h : s.ks = 0) : exec (.ldVxK x) s = .next (s.setPC (s.pc - 2)) := by
  simp [exec, execLdVxK, s.firstHeld_eq_none.2 h, wordBytes]

/-- Settles O46: the row, one write of VX with the lowest held key, and one write of PC where none is held. -/
theorem waitForKeyTakesLowestKey : Obligations.WaitForKeyTakesLowestKey := by
  refine ⟨.of_row (.ldVxK 0) rfl, fun x s => ⟨fun k hk hheld hlow => ?_, fun hnone => ?_⟩⟩
  · rw [exec_ldVxK_held x ((s.firstHeld_eq_some k).2 ⟨hk, hheld, hlow⟩)]
    refine (completes_writeV x (BitVec.ofNat 8 k)).imp fun t ⟨hx, hother⟩ => ⟨?_, hother⟩
    rw [hx, BitVec.toNat_ofNat]
    omega
  · rw [exec_ldVxK_none x (BitVec.eq_of_getLsbD_eq fun k hk => (hnone k hk).trans BitVec.getLsbD_zero.symm)]
    exact ⟨_, rfl, .setPC _, rfl⟩

/-- A cycle of FX0A with no key held ends where it began: the fetch is undone, and the cycle's timer step is made. -/
theorem CycleIsNext.step_waitForKey {rest : List PortEvent} {x : Nibble} (h : CycleIsNext s 0 rest)
    (hd : decodeWord s.cfg.decodeStrict s.wordAtPC = .instr (.ldVxK x)) :
    ∃ t, step s = .next t ∧ KeepsBut [.dt, .st, .ks] (s.setPorts rest) t ∧
      t.dt.toNat = s.dt.toNat - cycleTicks s.cfg.timerMode ∧
      t.st.toNat = s.st.toNat - cycleTicks s.cfg.timerMode := by
  obtain ⟨hr, -, -⟩ := id h
  have he := exec_ldVxK_none (s := (s.setPorts rest).fetched 0) x rfl
  have hback : KeepsBut [.ks] (s.setPorts rest) (((s.setPorts rest).fetched 0).setPC (s.pc + 2 - 2)) := by
    simp [KeepsBut, State.fetched_eq]
  obtain ⟨hdt, hst⟩ := State.endCycle_timers (t := ((s.setPorts rest).fetched 0).setPC (s.pc + 2 - 2))
    fun hf => nomatch hr.symm.trans hf
  exact ⟨_, h.step_instr hd he, (hback.mono (by simp)).trans (State.endCycle_keepsBut _), hdt, hst⟩

theorem KeepsBut.setPorts {ps : List Piece} (h : KeepsBut ps s t) (es : List PortEvent) :
    KeepsBut ps (s.setPorts es) (t.setPorts es) := by
  obtain ⟨v, i, pc, stack, sp, dt, st, d, m, rs, fr, ks, cfg, -⟩ := h
  exact ⟨v, i, pc, stack, sp, dt, st, d, m, rs, fr, ks, cfg, rfl⟩

theorem core_run_succ (M : Host.Core) {s t : M.State} (h : M.step s = .next t) (n : Nat) :
    M.run (n + 1) s = M.run n t := by
  rw [Host.Core.run, h]

/-- Any number of cycles of FX0A with no key held, by induction on it: each leaves the next one the same RS, PC,
memory and parameters. -/
theorem run_waitForKey {rest : List PortEvent} {x : Nibble} (n : Nat) : ∀ s : State, s.rs = .running →
    s.pc.toNat ≤ 0xFFE → s.ports = List.replicate n (.keys 0) ++ rest →
    decodeWord s.cfg.decodeStrict s.wordAtPC = .instr (.ldVxK x) →
    ∃ t, Sys2Proof.core.run n s = .next t ∧ KeepsBut [.dt, .st, .ks] (s.setPorts rest) t ∧
      t.dt.toNat = s.dt.toNat - n * cycleTicks s.cfg.timerMode ∧
      t.st.toNat = s.st.toNat - n * cycleTicks s.cfg.timerMode := by
  induction n with
  | zero =>
    intro s _ _ hp _
    exact ⟨s, rfl, by simp [KeepsBut, hp], by simp, by simp⟩
  | succ n ih =>
    intro s hr hpc hp hd
    obtain ⟨t, hstep, hkeep, hdt, hst⟩ := CycleIsNext.step_waitForKey (s := s) ⟨hr, hp, hpc⟩ hd
    obtain ⟨-, -, hpc', -, -, -, -, -, hmem', hrs', -, -, hcfg', hports'⟩ := id hkeep
    have hword : t.wordAtPC = s.wordAtPC := by
      rw [State.wordAtPC, hpc' (by decide), hmem' (by decide), hmem' (by decide)]
      rfl
    have hcfg : t.cfg = s.cfg := hcfg'
    have hpct : t.pc = s.pc := hpc' (by decide)
    obtain ⟨u, hrun, hkeep', hdt', hst'⟩ := ih t ((hrs' (by decide)).trans hr) (by rwa [hpct]) hports'
      (by rwa [hword, hcfg])
    refine ⟨u, ?_, (hkeep.setPorts rest).trans hkeep', ?_, ?_⟩
    · exact (core_run_succ Sys2Proof.core hstep n).trans hrun
    · rw [hdt', hdt, hcfg, Nat.succ_mul]
      omega
    · rw [hst', hst, hcfg, Nat.succ_mul]
      omega

/-- Settles O47: the induction over the cycles, with one tick a cycle in coupled mode and none in independent mode. -/
theorem waitForKeyHoldsUntilKeyPressed : Obligations.WaitForKeyHoldsUntilKeyPressed := by
  intro n s x rest hr hpc hp hd
  obtain ⟨t, hrun, hkeep, hdt, hst⟩ := run_waitForKey n s hr hpc hp hd
  refine ⟨t, hrun, hkeep, fun hm => ?_, fun hm => ?_⟩ <;> simp only [hm, cycleTicks] at hdt hst
  · exact ⟨by omega, by omega⟩
  · exact ⟨BitVec.eq_of_toNat_eq (by omega), BitVec.eq_of_toNat_eq (by omega)⟩

/-! ### The timers -/

/-- Settles O48: the three rows, and one write each. -/
theorem timerMoves : Obligations.TimerMoves := by
  refine ⟨.of_row (.ldVxDT 0) rfl, .of_row (.ldDTVx 0) rfl, .of_row (.ldSTVx 0) rfl, fun x s =>
    ⟨completes_writeV x s.dt, ⟨_, rfl, ?_, rfl⟩, ⟨_, rfl, ?_, rfl⟩⟩⟩
  · simp [KeepsBut]
  · simp [KeepsBut]

/-- A cycle whose instruction keeps RS steps the timers that the instruction leaves, and keeps its registers. -/
theorem CycleIsNext.step_timers {k : Word} {rest : List PortEvent} {i : Instr} (h : CycleIsNext s k rest)
    (hd : decodeWord s.cfg.decodeStrict s.wordAtPC = .instr i)
    (he : exec i ((s.setPorts rest).fetched k) = .next t) (hrs : t.rs = s.rs) (hcfg : t.cfg = s.cfg) :
    ∃ u, step s = .next u ∧ (∀ x, u.readV x = t.readV x) ∧
      u.dt.toNat = t.dt.toNat - cycleTicks s.cfg.timerMode ∧
      u.st.toNat = t.st.toNat - cycleTicks s.cfg.timerMode := by
  obtain ⟨hr, -, -⟩ := id h
  obtain ⟨hv, -⟩ := t.endCycle_keepsBut
  have htimers := State.endCycle_timers (t := t) fun hf => nomatch (hr.symm.trans hrs.symm).trans hf
  rw [hcfg] at htimers
  exact ⟨_, h.step_instr hd he, hv (by decide), htimers⟩

/-- Settles O49: the end of the cycle steps the timers as the instruction has left them. -/
theorem timerStepEndsTheCycle : Obligations.TimerStepEndsTheCycle := by
  intro s k rest x hc d hd
  have hticks : cycleTicks s.cfg.timerMode = d := by
    rcases hd with ⟨hm, rfl⟩ | ⟨hm, rfl⟩ <;> rw [hm] <;> rfl
  subst hticks
  refine ⟨fun hi => ?_, fun hi => ?_, fun hi => ?_⟩ <;>
    obtain ⟨t, hstep, hv, hdt, hst⟩ := hc.step_timers hi rfl rfl rfl
  · exact ⟨t, hstep, hdt, hst⟩
  · exact ⟨t, hstep, hst, hdt⟩
  · exact ⟨t, hstep, (hv x).trans (State.readV_writeV_same _ x _), hdt⟩

end Sys2Proof.Machine
end

section
/-! O50, O51, O52, O53: what instructions write and what they do not read (10_state.md R23 to R32, R39). -/

namespace Sys2Proof.Machine

variable {s t : State}

/-- Settles O50: the frame of an instruction. -/
theorem execWritesOnlyItsFootprint : Obligations.ExecWritesOnlyItsFootprint :=
  fun _ _ _ h hg => exec_keepsBut_footprint h hg

/-! ### The registers an instruction writes -/

theorem readV_writeResultFlag_other {x z : Nibble} (r f : Byte) (h : ¬(z = x ∨ z = regF)) :
    (s.writeResultFlag x r f).readV z = s.readV z := by
  rw [State.readV_writeResultFlag, if_neg fun hF => h (.inr hF), if_neg fun hx => h (.inl hx)]

/-- A register that the effect leaves is left inside the bounds check, unless the check faults. -/
theorem readV_withBytesAtI {n : Nat} {i : Instr} {z : Nibble} (h : t.readV z = s.readV z)
    (hg : (s.withBytesAtI n i t).rs ≠ .faulted) : (s.withBytesAtI n i t).readV z = s.readV z := by
  rcases s.withBytesAtI_cases n i t with he | ⟨_, _, _, he⟩
  · rwa [he]
  · simp [he] at hg

/-- Settles O51: an instruction without V in its footprint keeps every register, and each of the others by the law of
its one write. -/
theorem execWritesOnlyNamedRegisters : Obligations.ExecWritesOnlyNamedRegisters := by
  intro i s t h hg z hz
  obtain ⟨hv, -⟩ := exec_keepsBut_footprint h hg
  cases i with
  | ldByte | addByte | ldReg | orReg | andReg | xorReg | ldVxDT =>
    cases h
    exact s.readV_writeV_other _ hz
  | addReg | subReg | shr | subnReg | shl => cases h; exact readV_writeResultFlag_other _ _ hz
  | drw x y n => cases h; exact readV_withBytesAtI (s.drawSprite_readV_other x y n hz) hg
  | loadRegs x =>
    cases h
    refine readV_withBytesAtI ?_ hg
    obtain ⟨hread, -⟩ := s.loadFirstRegs_spec (x.toNat + 1) (by omega)
    rw [hread, if_neg fun hlt => hz (Nat.le_of_lt_succ hlt)]
  | ldVxK x =>
    cases h
    cases s.firstHeld
    · rfl
    · exact s.readV_writeV_other _ hz
  | _ => exact hv (by simp [Instr.footprint]) z

/-! ### The sample and the sound timer -/

/-- `s` with another keypad sample and another sound timer. -/
def State.withSampleAndSound (s : State) (k : Word) (b : Byte) : State := (s.setKS k).setST b

section
variable (k : Word) (b : Byte)

theorem withSampleAndSound_skipIf (c : Prop) [Decidable c] :
    (s.withSampleAndSound k b).skipIf c = (s.skipIf c).withSampleAndSound k b := by
  simp only [State.skipIf_eq]
  rfl

theorem withSampleAndSound_writeResultFlag (x : Nibble) (r f : Byte) :
    (s.withSampleAndSound k b).writeResultFlag x r f = (s.writeResultFlag x r f).withSampleAndSound k b := by
  have hcfg : (s.withSampleAndSound k b).cfg = s.cfg := rfl
  simp only [State.writeResultFlag, hcfg]
  cases s.cfg.flagOrder <;> rfl

/-- The bounds check reads I only. -/
theorem withSampleAndSound_withBytesAtI {n : Nat} {i : Instr} (hg : (s.withBytesAtI n i t).rs ≠ .faulted) :
    (s.withSampleAndSound k b).withBytesAtI n i (t.withSampleAndSound k b) =
      (s.withBytesAtI n i t).withSampleAndSound k b := by
  by_cases hb : n = 0 ∨ s.i.toNat + n ≤ memSize
  · have hb' : n = 0 ∨ (s.withSampleAndSound k b).i.toNat + n ≤ memSize := hb
    rw [State.withBytesAtI_inBounds hb, State.withBytesAtI_inBounds hb']
  · rw [State.withBytesAtI_out (by omega) (by omega)] at hg
    exact absurd rfl hg

theorem withSampleAndSound_loadFirstRegs (n : Nat) :
    (s.withSampleAndSound k b).loadFirstRegs n = (s.loadFirstRegs n).withSampleAndSound k b :=
  List.foldl_hom (State.withSampleAndSound · k b) fun _ _ => rfl

/-- The key operand reads no sound timer. -/
theorem withSampleAndSound_withKey {x : Nibble} {i : Instr} {e e' : Bool → State}
    (hg : (s.withKey x i e).rs ≠ .faulted) (he : ∀ held, e' held = (e held).withSampleAndSound s.ks b) :
    (s.withSampleAndSound s.ks b).withKey x i e' = (s.withKey x i e).withSampleAndSound s.ks b := by
  by_cases hx : (s.readV x).toNat ≤ 15
  · rw [State.withKey_valid hx, ← he]
    exact State.withKey_valid hx i e'
  · cases hp : s.cfg.keyIndex with
    | fault =>
      rw [State.withKey_fault (by omega) hp] at hg
      exact absurd rfl hg
    | notHeld =>
      rw [State.withKey_notHeld (by omega) hp, ← he]
      exact State.withKey_notHeld (Nat.lt_of_not_le hx) hp i e'

/-- An instruction other than FX18 does the same whatever the sound timer is, and, unless it reads the keys, whatever
the sample is. -/
theorem exec_withSampleAndSound {i : Instr} (hst : ∀ x, i ≠ .ldSTVx x) (hks : i.readsKeys = true → k = s.ks)
    (h : exec i s = .next t) (hg : t.rs ≠ .faulted) :
    exec i (s.withSampleAndSound k b) = .next (t.withSampleAndSound k b) := by
  cases i with
  | ldSTVx x => exact absurd rfl (hst x)
  | seByte | sneByte | seReg | sneReg => cases h; exact congrArg _ (withSampleAndSound_skipIf k b _)
  | addReg | subReg | shr | subnReg | shl =>
    cases h
    exact congrArg _ (withSampleAndSound_writeResultFlag k b _ _ _)
  | ret x =>
    by_cases hs : 0 < s.sp.val
    · cases (exec_ret_pops x hs).symm.trans h
      exact exec_ret_pops (s := s.withSampleAndSound k b) x hs
    · cases (exec_ret_underflows x hs).symm.trans h
      exact absurd rfl hg
  | call nnn =>
    by_cases hs : s.sp.val < 16
    · cases (exec_call_pushes nnn hs).symm.trans h
      exact exec_call_pushes (s := s.withSampleAndSound k b) nnn hs
    · cases (exec_call_overflows nnn hs).symm.trans h
      exact absurd rfl hg
  | drw | ldB | storeRegs => cases h; exact congrArg _ (withSampleAndSound_withBytesAtI k b hg)
  | loadRegs x =>
    cases h
    rw [exec, execLoadRegs, withSampleAndSound_loadFirstRegs]
    exact congrArg _ (withSampleAndSound_withBytesAtI k b hg)
  | skp | sknp =>
    cases h
    cases hks rfl
    exact congrArg _ (withSampleAndSound_withKey b hg fun _ => withSampleAndSound_skipIf _ b _)
  | ldVxK x =>
    cases hks rfl
    have hheld : (s.withSampleAndSound s.ks b).firstHeld = s.firstHeld := rfl
    cases h
    rw [exec, execLdVxK, hheld]
    cases s.firstHeld <;> rfl
  | cls | jp | jpV0 | ldByte | addByte | ldReg | orReg | andReg | xorReg | ldI | addI | ldVxDT | ldDTVx =>
    cases h
    rfl

end

/-- Settles O52: FX18 by its one write, and every other instruction with the sound timer it finds, which it keeps. -/
theorem keySampleReachesOnlyKeyInstructions : Obligations.KeySampleReachesOnlyKeyInstructions := by
  intro i s t k hk h hg
  by_cases hst : ∃ x, i = .ldSTVx x
  · obtain ⟨x, rfl⟩ := hst
    cases h
    rfl
  · obtain ⟨-, -, -, -, -, -, hsound, -⟩ := exec_keepsBut_footprint h hg
    have ht : t.withSampleAndSound k s.st = t.setKS k := by
      rw [← hsound fun hm => hst (st_mem_footprint.1 hm)]
      rfl
    rw [← ht]
    exact exec_withSampleAndSound k s.st (not_exists.1 hst) (fun hr => nomatch hk.symm.trans hr) h hg

/-- Settles O53: FX18 overwrites the sound timer it finds, and every other instruction runs with the sample it finds,
which it keeps. -/
theorem soundTimerIsReadByNothing : Obligations.SoundTimerIsReadByNothing := by
  intro i s t b h hg
  refine ⟨fun hst => ?_, ?_⟩
  · obtain ⟨-, -, -, -, -, -, -, -, -, -, -, hsample, -⟩ := exec_keepsBut_footprint h hg
    have ht : t.withSampleAndSound s.ks b = t.setST b := by
      rw [← hsample (by cases i <;> simp [Instr.footprint])]
      rfl
    rw [← ht]
    exact exec_withSampleAndSound s.ks b hst (fun _ => rfl) h hg
  · rintro ⟨x, rfl⟩
    cases h
    rfl

end Sys2Proof.Machine
end
